-- ==== Sys2Proof/Word.lean ====
section
/-! DEFINITION. The three word types of LSFC: a byte, a 16-bit field and a 32-bit register
(spec 00_scope.md rules R11 and R16: every stored quantity is an unsigned integer of a stated width and every
addition or subtraction on it is modulo 2 to that width, which is what `BitVec` arithmetic does). -/

namespace Sys2Proof

/-- An 8-bit byte. -/
abbrev Byte := BitVec 8

/-- A 16-bit field: header `len` and `id`, operand `n`, response length `m`. -/
abbrev Half := BitVec 16

/-- A 32-bit register: `CRC_ACC`, the sequence counters, the statistics, header `crc` and `order`. -/
abbrev Word := BitVec 32

end Sys2Proof
end

