-- ==== Sys2Proof/Machine/Bytes.lean ====
section
/-! DEFINITION. Big-endian fields and their inverses (spec 00_scope.md rule R12; 20_memory.md rules R54, R55). -/

namespace Sys2Proof.Machine

/-- `be16(v)`: the two bytes `v[15:8]`, `v[7:0]` (R12). -/
def be16 (v : Half) : List Byte :=
  [v.extractLsb' 8 8, v.extractLsb' 0 8]

/-- `be32(v)`: the four bytes `v[31:24]`, `v[23:16]`, `v[15:8]`, `v[7:0]` (R12). -/
def be32 (v : Word) : List Byte :=
  [v.extractLsb' 24 8, v.extractLsb' 16 8, v.extractLsb' 8 8, v.extractLsb' 0 8]

/-- The number a big-endian byte string stands for. -/
def unbe (bs : List Byte) : Nat :=
  bs.foldl (fun acc b => acc * 256 + b.toNat) 0

/-- `unbe16`, the inverse of `be16` (R12, R76). -/
def unbe16 (bs : List Byte) : Half :=
  BitVec.ofNat 16 (unbe bs)

/-- `unbe32`, the inverse of `be32` (R12). -/
def unbe32 (bs : List Byte) : Word :=
  BitVec.ofNat 32 (unbe bs)

/-- A length as the 16-bit field that carries it: `be16` of a number (R81). -/
def lengthField (n : Nat) : List Byte :=
  be16 (BitVec.ofNat 16 n)

end Sys2Proof.Machine
end

