-- ==== Sys2Proof/Config.lean ====
section
/-! DEFINITION. What an implementation of LSFC fixes: the constants of spec 00_scope.md rules R8 and R10, and the two
open capacities of rule R9, which are opaque: no proof can see their values, so a claim about `State.reset` holds for
every legal pair of capacities. -/

namespace Sys2Proof.Config

/-- The description record of 41_crc.md rule R130; `check` takes no part in any computation. -/
structure CrcDescription where
  width   : Nat
  poly    : Word
  init    : Word
  reflect : Bool
  xorOut  : Word
  check   : Word
  deriving DecidableEq, Repr

/-- CRC-32/ISO-HDLC, the one description the hardware contains (R3, R8, R130). -/
def crc32IsoHdlc : CrcDescription :=
  { width := 32, poly := 0x04C11DB7, init := 0xFFFFFFFF, reflect := true, xorOut := 0xFFFFFFFF, check := 0xCBF43926 }

/-- `rpoly`, the bit-reversed polynomial of the reflected case (R131). -/
def crcReversedPoly : Word := 0xEDB88320

/-- The one byte of `DELIM`, the Frame Reader's delimiter (R8, R150). -/
def delim : Byte := 0x00

/-- `DLEN`, the length of `DELIM` (R8, R150). -/
def dlen : Nat := 1

/-- `HDR_SIZE`, the header's size in bytes (R8, R83). -/
def hdrSize : Nat := 12

/-- `COBS_MAXRUN`, the longest literal run of one COBS block (R8, R82). -/
def cobsMaxRun : Nat := 254

/-- `NMAX`, the longest inline vector of a COBS.ENC command (R10, R78 f). -/
def nmax : Nat := 65277

/-- The largest value of a capacity and of a 16-bit length (R9). -/
def capMax : Nat := 65535

/-- RXCAP less one: an open parameter of the hardware (R9, D21), so opaque. DESIGN CHOICE (log entry 4); safe. -/
opaque rxcapLessOne : Fin 65535

/-- TXCAP less one: an open parameter of the hardware (R9, D21), so opaque. DESIGN CHOICE (log entry 4); safe. -/
opaque txcapLessOne : Fin 65535

/-- `RXCAP`, between 1 and 65535 (R9). -/
def rxcap : Nat := rxcapLessOne.val + 1

/-- `TXCAP`, between 1 and 65535 (R9). -/
def txcap : Nat := txcapLessOne.val + 1

end Sys2Proof.Config
end

