-- ==== Sys2Proof/Machine/State.lean ====
section
/-! DEFINITION. The state of LSFC as plain data (spec 10_state.md), the ways a step can stop, and the state after
hardware reset (rule R33). -/

namespace Sys2Proof.Machine

/-! ## How a step can stop -/

/-- Why the machine stops with a fault: never. "The hardware raises no synchronous exception and takes no trap" and "no
command can fail to complete" (60_exceptions.md R210), so there is no constructor: no step can answer a fault. -/
inductive Fault where
  deriving DecidableEq, Repr

/-- Why the model refuses to give a step a meaning. -/
inductive Refusal where
  /-- Raised by an arm of `exec` whose command has no meaning yet: by none now. Safe: the model stops. -/
  | notModelled (mnemonic : String)
  /-- Raised by `step` when the host presents commands that overlap in time: "an overlapping presentation is refused, not
  given a value" (20_memory.md R64, 93_implementation_defined.md U1). Safe: the model stops. -/
  | overlappingCommands
  deriving DecidableEq, Repr

/-! ## Storage -/

/-- A byte array held sparsely: (index, byte) pairs, in the canonical form `Memory.wf`. -/
abbrev Memory := List Host.Cell

/-- What an index that the list does not name reads as. The spec leaves the bytes no command has written "unspecified;
unobservable" (R33, R23). DESIGN CHOICE (log entry 5); unsafe. -/
def unlistedByte : Byte := 0x00

/-- The canonical form: indices strictly rising, and no entry equal to what an unlisted index reads as. -/
abbrev Memory.wf (m : Memory) : Prop :=
  m.Pairwise (fun c d => c.1 < d.1) ∧ ∀ c ∈ m, c.2 ≠ unlistedByte

/-! ## Outputs: responses and events -/

/-- The four header fields (30_encoding.md R83). -/
structure Header where
  crc   : Word
  len   : Half
  id    : Half
  order : Word
  deriving DecidableEq, Repr

/-- The three output events (R85). -/
inductive Event where
  /-- `PrepareTx`, on the transmit port, carries nothing. -/
  | prepareTx
  /-- `TxBuffer(bytes)`, on the transmit port, carries one whole frame, terminator included. -/
  | txBuffer (bytes : List Byte)
  /-- `RxPacket(payload, header)`, on the dispatch port. -/
  | rxPacket (payload : List Byte) (header : Header)
  deriving DecidableEq, Repr

/-- One thing the core hands over: an event, or the response `status ++ body` of a command (R80). -/
inductive Output where
  | event (e : Event)
  | response (bytes : List Byte)
  deriving DecidableEq, Repr

/-- What the host presents on the command port: one command packet (30_encoding.md R70), or packets that overlap in time
(20_memory.md R64). -/
inductive Presentation where
  | packet (bytes : List Byte)
  | overlapping (packets : List (List Byte))
  deriving DecidableEq, Repr

/-! ## The units -/

/-- The open parameters RXCAP and TXCAP (00_scope.md R9). No step changes them (10_state.md R32). -/
structure Capacities where
  rxcap : Nat
  txcap : Nat
  deriving DecidableEq, Repr

/-- The Frame Reader: `FR_BUF`, `FR_LEN`, `FR_M` (R23). -/
structure Reader where
  buf : Memory
  len : Nat
  m   : Nat
  deriving DecidableEq, Repr

/-- The nine statistics, `SR[0]` to `SR[8]` (R27, R28). -/
structure Stats where
  currentOverruns    : Word
  totalOverruns      : Word
  decodeErrors       : Word
  crcErrors          : Word
  lengthErrors       : Word
  rxRedundantPackets : Word
  rxDroppedPackets   : Word
  rxPackets          : Word
  stateResets        : Word
  deriving DecidableEq, Repr

/-- The Packet Manager: `LAST_SENT_ORDER` (R25), `LAST_RECEIVED_ORDER` (R26) and the statistics. -/
structure PacketManager where
  lastSentOrder     : Word
  lastReceivedOrder : Word
  stats             : Stats
  deriving DecidableEq, Repr

/-! ## The state -/

/-- The whole machine. `caps`, `pending` and `trace` are the model's own fields: the parameters (log entry 4), what the host
has presented and the core has not yet executed (log entry 1), and everything handed over so far in emission order, which no
rule reads back (R32, log entry 3). -/
structure State where
  caps    : Capacities
  crcAcc  : Word
  reader  : Reader
  pm      : PacketManager
  pending : List Presentation
  trace   : List Output
  deriving DecidableEq, Repr

/-- An empty Frame Reader (R33). -/
def Reader.reset : Reader :=
  { buf := [], len := 0, m := 0 }

/-- All statistics zero, `state_resets` included (R33). -/
def Stats.reset : Stats :=
  { currentOverruns := 0, totalOverruns := 0, decodeErrors := 0, crcErrors := 0, lengthErrors := 0,
    rxRedundantPackets := 0, rxDroppedPackets := 0, rxPackets := 0, stateResets := 0 }

/-- Both sequence counters and all statistics zero (R33). -/
def PacketManager.reset : PacketManager :=
  { lastSentOrder := 0, lastReceivedOrder := 0, stats := Stats.reset }

/-- The state after hardware reset, parameterised by the capacities (R33, 70_reset_and_hazards.md R240). -/
def State.resetWith (caps : Capacities) : State :=
  { caps := caps, crcAcc := Config.crc32IsoHdlc.init, reader := Reader.reset, pm := PacketManager.reset,
    pending := [], trace := [] }

/-- The state after hardware reset, at the open capacities of Config. -/
def State.reset : State :=
  State.resetWith { rxcap := Config.rxcap, txcap := Config.txcap }

end Sys2Proof.Machine
end

