-- ==== Sys2Proof/Machine/Ops.lean ====
section
/-! DEFINITION. The named operations over storage, registers and output ports that the meanings share: `MemRead`,
`MemWrite` (spec 00_scope.md rule R13), `emit` (rule R14, 30_encoding.md rule R86), `respond` (rule R80), the status
registers (10_state.md rule R27) and the Packet Manager reset (43_packet_manager.md rule R186).

Taking an exception and returning from one have no operation here: the hardware has neither (60_exceptions.md rules R210,
R217, R218). What happens on an anomaly instead is `finishRx` and `epilogue` of Machine/PacketManager.lean. -/

namespace Sys2Proof.Machine

/-! ## Byte arrays -/

/-- The byte at one index. -/
def Memory.read (m : Memory) (a : Nat) : Byte :=
  match m with
  | [] => unlistedByte
  | (k, v) :: rest => if a = k then v else Memory.read rest a

/-- One byte stored at one index, keeping the canonical form. -/
def Memory.write (m : Memory) (a : Nat) (b : Byte) : Memory :=
  match m with
  | [] => if b = unlistedByte then [] else [(a, b)]
  | (k, v) :: rest =>
    if a < k then if b = unlistedByte then (k, v) :: rest else (a, b) :: (k, v) :: rest
    else if a = k then if b = unlistedByte then rest else (a, b) :: rest
    else (k, v) :: Memory.write rest a b

/-- `MemRead(space, addr, n)`: the `n` bytes from index `addr` (R13). -/
def memRead (m : Memory) (addr n : Nat) : List Byte :=
  match n with
  | 0 => []
  | k + 1 => m.read addr :: memRead m (addr + 1) k

/-- `MemWrite(space, addr, |bs|, bs)`: the byte string stored from index `addr` (R13). -/
def memWrite (m : Memory) (addr : Nat) (bs : List Byte) : Memory :=
  match bs with
  | [] => m
  | b :: rest => memWrite (m.write addr b) (addr + 1) rest

/-! ## Writing a register or a unit -/

/-- `CRC_ACC <- v` (R22). -/
def State.setCrcAcc (s : State) (v : Word) : State :=
  { s with crcAcc := v }

/-- The Frame Reader becomes `r` (R23). -/
def State.setReader (s : State) (r : Reader) : State :=
  { s with reader := r }

/-- The Packet Manager's registers become `p` (R25 to R28). -/
def State.setPm (s : State) (p : PacketManager) : State :=
  { s with pm := p }

/-- The statistics become `c` (R28). -/
def State.setStats (s : State) (c : Stats) : State :=
  { s with pm := { s.pm with stats := c } }

/-- `LAST_SENT_ORDER <- v` (R25). -/
def State.setLastSentOrder (s : State) (v : Word) : State :=
  { s with pm := { s.pm with lastSentOrder := v } }

/-- `LAST_RECEIVED_ORDER <- v` (R26). -/
def State.setLastReceivedOrder (s : State) (v : Word) : State :=
  { s with pm := { s.pm with lastReceivedOrder := v } }

/-- What the host has presented and the core has not yet executed becomes `ps`. -/
def State.setPending (s : State) (ps : List Presentation) : State :=
  { s with pending := ps }

/-! ## Outputs -/

/-- The status byte of a response (R80). -/
inductive Status where
  | ok | illegal | precond
  deriving DecidableEq, Repr

/-- The number of a status (R80). -/
def statusCode (st : Status) : Byte :=
  match st with
  | .ok => 0x00
  | .illegal => 0x01
  | .precond => 0x02

/-- Outputs handed over, in order, after everything handed over before (R63, R86). -/
def State.deliver (s : State) (os : List Output) : State :=
  { s with trace := s.trace ++ os }

/-- `emit E` (R14, R86). -/
def emit (s : State) (e : Event) : State :=
  s.deliver [.event e]

/-- `respond(status, body)`: the byte string `status ++ body` on the response port (R14, R80). -/
def respond (s : State) (st : Status) (body : List Byte) : State :=
  s.deliver [.response (statusCode st :: body)]

/-! ## The status registers -/

/-- `SR[i]`; there is none at index 11 and above (R27). -/
def statusReg (s : State) (i : Nat) : Option Word :=
  match i with
  | 0 => some s.pm.stats.currentOverruns
  | 1 => some s.pm.stats.totalOverruns
  | 2 => some s.pm.stats.decodeErrors
  | 3 => some s.pm.stats.crcErrors
  | 4 => some s.pm.stats.lengthErrors
  | 5 => some s.pm.stats.rxRedundantPackets
  | 6 => some s.pm.stats.rxDroppedPackets
  | 7 => some s.pm.stats.rxPackets
  | 8 => some s.pm.stats.stateResets
  | 9 => some s.pm.lastSentOrder
  | 10 => some s.pm.lastReceivedOrder
  | _ => none

/-- `pm_reset()`, manual or triggered: both sequence counters and `SR[0]` to `SR[7]` zero, `SR[8]` one more (R186). -/
def pmReset (s : State) : State :=
  s.setPm { lastSentOrder := 0, lastReceivedOrder := 0,
            stats := { Stats.reset with stateResets := s.pm.stats.stateResets + 1 } }

end Sys2Proof.Machine
end

