-- ==== Sys2Proof/Machine/Cobs.lean ====
section
/-! DEFINITION. The COBS Codec (spec 40_cobs.md): the encoding function ENC (rule R101), the decoding function DEC (rule
R105) with its result codes (rule R106), and the meanings of COBS.ENC (rule R103) and COBS.DEC (rule R107). -/

namespace Sys2Proof.Machine

/-! ## ENC -/

/-- One block: the marker `k + 1` of a run of `k` literal bytes, then the run (R100). A full run of 254 gets 0xFF. -/
def cobsBlock (run : List Byte) : List Byte :=
  BitVec.ofNat 8 (run.length + 1) :: run

/-- The loop of ENC: `run` holds the literal bytes since the last marker, the result is what is still to be produced (R101). -/
def encLoop (input run : List Byte) : List Byte :=
  match input with
  | [] => cobsBlock run
  | b :: rest =>
    if b = 0x00 then cobsBlock run ++ encLoop rest []
    else if run.length + 1 = Config.cobsMaxRun then cobsBlock (run ++ [b]) ++ encLoop rest []
    else encLoop rest (run ++ [b])

/-- `ENC(B)`: the COBS encoding of a byte string, without terminator (R101). -/
def enc (bytes : List Byte) : List Byte :=
  encLoop bytes []

/-! ## DEC -/

/-- Result codes of DEC (R106). -/
inductive CobsResult where
  | ok | zeroMissing | tooShort | unexpectedZero | zeroLengthBlock
  deriving DecidableEq, Repr

/-- The number of a result code in a COBS.DEC response (R106). -/
def cobsResultCode (r : CobsResult) : Byte :=
  match r with
  | .ok => 0
  | .zeroMissing => 1
  | .tooShort => 2
  | .unexpectedZero => 3
  | .zeroLengthBlock => 4

/-- What DEC reads next: a block's length byte; a literal, with how many follow it in this block and whether the block is
full; or whatever stands after a short block. DEDUCED (log entry 10): the cursor loop of R105 cut at its reads. -/
inductive DecPhase where
  | lengthByte
  | literal (more : Nat) (full : Bool)
  | shortEnd
  deriving DecidableEq, Repr

/-- The phase when `left` literals of a block are still to be read (R105). -/
def phaseFor (left : Nat) (full : Bool) : DecPhase :=
  match left with
  | 0 => if full then .lengthByte else .shortEnd
  | k + 1 => .literal k full

/-- The phase after the length byte `marker`: `L - 1` literals, a full block when `L = 0xFF` (R105). -/
def openBlock (marker : Byte) : DecPhase :=
  phaseFor (marker.toNat - 1) (marker == 0xFF)

/-- A decoded byte in front of what the rest decodes to. -/
def consDecoded (b : Byte) (x : CobsResult × List Byte) : CobsResult × List Byte :=
  (x.1, b :: x.2)

/-- The loop of DEC from a phase on (R105). -/
def decLoop (final : Bool) (phase : DecPhase) (input : List Byte) : CobsResult × List Byte :=
  match input with
  | [] =>
    match phase with
    | .lengthByte => (.zeroLengthBlock, [])
    | .literal _ _ => (.tooShort, [])
    | .shortEnd => if final then (.ok, []) else (.zeroMissing, [])
  | b :: rest =>
    match phase with
    | .lengthByte => if b = 0x00 then (.unexpectedZero, []) else decLoop final (openBlock b) rest
    | .literal more full =>
      if b = 0x00 then (.unexpectedZero, []) else consDecoded b (decLoop final (phaseFor more full) rest)
    | .shortEnd => if b = 0x00 then (.ok, []) else consDecoded 0x00 (decLoop final (openBlock b) rest)

/-- `DEC(I, final)`: a result code and the bytes decoded (R105). -/
def dec (input : List Byte) (final : Bool) : CobsResult × List Byte :=
  decLoop final .lengthByte input

/-! ## The commands -/

/-- The body of a COBS.DEC response: the code, and the bytes only when it is `Ok` (R81, R107). -/
def cobsDecBody (x : CobsResult × List Byte) : List Byte :=
  if x.1 = .ok then cobsResultCode .ok :: (lengthField x.2.length ++ x.2) else [cobsResultCode x.1]

/-- COBS.ENC (R103). -/
def execCobsEnc (data : List Byte) (s : State) : Host.Outcome State Fault Refusal :=
  let out := enc data ++ [0x00]
  .next (respond s .ok (lengthField out.length ++ out))

/-- COBS.DEC (R107). -/
def execCobsDec (final : Bool) (data : List Byte) (s : State) : Host.Outcome State Fault Refusal :=
  .next (respond s .ok (cobsDecBody (dec data final)))

end Sys2Proof.Machine
end

