-- ==== Sys2Proof/Machine/Crc.lean ====
section
/-! DEFINITION. The CRC Engine (spec 41_crc.md): the remainder table TBL (rule R131), the per-byte update UPD (rule R133),
FIN (rule R134), CRC32 (rule R135) and the meanings of CRC.INIT, CRC.UPD, CRC.FIN and CRC.TBL (rules R136 to R139). -/

namespace Sys2Proof.Machine

/-- One conditional shift-and-xor step: shift right, testing bit 0 (R131). -/
def crcStep (r : Word) : Word :=
  if r.getLsbD 0 then (r >>> 1) ^^^ Config.crcReversedPoly else r >>> 1

/-- `n` steps. -/
def crcSteps (n : Nat) (r : Word) : Word :=
  match n with
  | 0 => r
  | k + 1 => crcSteps k (crcStep r)

/-- `TBL(b)`: eight steps on the zero-extended byte (R131). -/
def tbl (b : Byte) : Word :=
  crcSteps 8 (b.setWidth 32)

/-- `UPD(acc, b)` (R133). -/
def upd (acc : Word) (b : Byte) : Word :=
  tbl ((acc ^^^ b.setWidth 32).extractLsb' 0 8) ^^^ (acc >>> 8)

/-- `FIN(acc)` (R134). -/
def fin (acc : Word) : Word :=
  acc ^^^ Config.crc32IsoHdlc.xorOut

/-- The accumulator after a byte string. -/
def updAll (acc : Word) (bs : List Byte) : Word :=
  match bs with
  | [] => acc
  | b :: rest => updAll (upd acc b) rest

/-- `CRC32(S)`, in a private accumulator (R135, 10_state.md R31). -/
def crc32 (bs : List Byte) : Word :=
  fin (updAll Config.crc32IsoHdlc.init bs)

/-- CRC.INIT (R136). -/
def execCrcInit (s : State) : Host.Outcome State Fault Refusal :=
  .next (respond (s.setCrcAcc Config.crc32IsoHdlc.init) .ok [])

/-- CRC.UPD (R137). -/
def execCrcUpd (b : Byte) (s : State) : Host.Outcome State Fault Refusal :=
  .next (respond (s.setCrcAcc (upd s.crcAcc b)) .ok [])

/-- CRC.FIN (R138). -/
def execCrcFin (s : State) : Host.Outcome State Fault Refusal :=
  .next (respond s .ok (be32 (fin s.crcAcc)))

/-- CRC.TBL (R139). -/
def execCrcTbl (b : Byte) (s : State) : Host.Outcome State Fault Refusal :=
  .next (respond s .ok (be32 (tbl b)))

end Sys2Proof.Machine
end

