-- ==== Sys2Proof/Machine/Flags.lean ====
section
/-! DEFINITION. The two flags of the hardware, pure functions of the Frame Reader (spec 10_state.md rule R24;
42_frame_reader.md rule R154), and the flag byte of FR.STAT (rule R158). There are no condition codes. -/

namespace Sys2Proof.Machine

/-- `have_match`: `FR_M = DLEN` (R24, R154). -/
def haveMatch (r : Reader) : Bool :=
  r.m = Config.dlen

/-- `is_full`: `FR_LEN = RXCAP` (R24, R154). -/
def isFull (rxcap : Nat) (r : Reader) : Bool :=
  r.len = rxcap

/-- The flag byte: bit 0 `have_match`, bit 1 `is_full`, bits 7:2 zero (R81, R158). -/
def flagByte (rxcap : Nat) (r : Reader) : Byte :=
  BitVec.ofNat 8 ((if haveMatch r then 1 else 0) + 2 * (if isFull rxcap r then 1 else 0))

end Sys2Proof.Machine
end

