-- ==== Sys2Proof/Machine/FrameReader.lean ====
section
/-! DEFINITION. The Frame Reader (spec 42_frame_reader.md): `fr_update` (rule R151), `fr_reset` (rule R153), the spans
(rule R155) and the meanings of FR.RST, FR.UPD, FR.STAT, FR.GETD and FR.GET (rules R156 to R160). -/

namespace Sys2Proof.Machine

/-- The reader takes no further byte: full or matched (R151, R154). -/
def frClosed (rxcap : Nat) (r : Reader) : Bool :=
  isFull rxcap r || haveMatch r

/-- The reader after one byte is appended (R151). -/
def frAppend (r : Reader) (b : Byte) : Reader :=
  { buf := memWrite r.buf r.len [b], len := r.len + 1, m := if b = Config.delim then r.m + 1 else r.m }

/-- `fr_update(b)`: the reader after the offer, and whether the byte was taken (R151). -/
def frUpdate (rxcap : Nat) (r : Reader) (b : Byte) : Reader × Bool :=
  if frClosed rxcap r then (r, false) else (frAppend r b, true)

/-- `fr_reset()`: the bytes of `FR_BUF` are left as they are (R153). -/
def frReset (r : Reader) : Reader :=
  { r with len := 0, m := 0 }

/-- `span_with`: all bytes taken since the last reset, in arrival order (R155). -/
def spanWith (r : Reader) : List Byte :=
  memRead r.buf 0 r.len

/-- `span_without`: the same less its last `DLEN` bytes (R155). -/
def spanWithout (r : Reader) : List Byte :=
  memRead r.buf 0 (r.len - Config.dlen)

/-- FR.RST (R156). -/
def execFrRst (s : State) : Host.Outcome State Fault Refusal :=
  .next (respond (s.setReader (frReset s.reader)) .ok [])

/-- FR.UPD (R157). -/
def execFrUpd (b : Byte) (s : State) : Host.Outcome State Fault Refusal :=
  let u := frUpdate s.caps.rxcap s.reader b
  .next (respond (s.setReader u.1) .ok [if u.2 then 0x01 else 0x00])

/-- FR.STAT (R158). -/
def execFrStat (s : State) : Host.Outcome State Fault Refusal :=
  .next (respond s .ok (flagByte s.caps.rxcap s.reader :: lengthField s.reader.len))

/-- FR.GETD (R159). -/
def execFrGetd (s : State) : Host.Outcome State Fault Refusal :=
  .next (respond s .ok (lengthField s.reader.len ++ spanWith s.reader))

/-- FR.GET: status PRECOND without a match (R160). -/
def execFrGet (s : State) : Host.Outcome State Fault Refusal :=
  .next
    (if haveMatch s.reader then
      respond s .ok (lengthField (s.reader.len - Config.dlen) ++ spanWithout s.reader)
    else respond s .precond [])

end Sys2Proof.Machine
end

