-- ==== Sys2Proof/Machine/PacketManager.lean ====
section
/-! DEFINITION. The Packet Manager (spec 43_packet_manager.md): regions, their CRC and their header (rules R170 to R173),
the send path PM.TX (rules R174 to R179), the receive path PM.RX (rules R180 to R185, with every anomaly of
60_exceptions.md rules R211 and R215), and the meanings of PM.RST and PM.STAT (rules R187, R188). -/

namespace Sys2Proof.Machine

/-! ## Regions -/

/-- `HDR(crc, len, id, order)`, 12 bytes (30_encoding.md R83). -/
def headerBytes (h : Header) : List Byte :=
  be32 h.crc ++ be16 h.len ++ be16 h.id ++ be32 h.order

/-- `FCRC(R)`: the CRC over the whole region with the four bytes of `crc` zeroed (R171). -/
def frameCrc (region : List Byte) : Word :=
  crc32 ([0x00, 0x00, 0x00, 0x00] ++ region.drop 4)

/-- The header of an outgoing packet whose `crc` field is `crc` (R172). -/
def txHeader (crc : Word) (id : Half) (payload : List Byte) (order : Word) : Header :=
  { crc := crc, len := BitVec.ofNat 16 payload.length, id := id, order := order }

/-- `REGION(id, P, order)`: header and payload with the `crc` field patched (R172). -/
def buildRegion (id : Half) (payload : List Byte) (order : Word) : List Byte :=
  let c := crc32 (headerBytes (txHeader 0 id payload order) ++ payload)
  headerBytes (txHeader c id payload order) ++ payload

/-- The four header fields at the front of a region (R173). -/
def parseHeader (region : List Byte) : Header :=
  { crc := unbe32 (region.take 4), len := unbe16 ((region.drop 4).take 2), id := unbe16 ((region.drop 6).take 2),
    order := unbe32 ((region.drop 8).take 4) }

/-- The payload span of a region (R173). -/
def regionPayload (region : List Byte) : List Byte :=
  region.drop Config.hdrSize

/-- The frame of a region: its encoding and the terminator (30_encoding.md R84). -/
def frameOf (region : List Byte) : List Byte :=
  enc region ++ [0x00]

/-! ## The send path -/

/-- `rep` pairs `PrepareTx`, `TxBuffer(frame)` (R177). -/
def txEvents (rep : Nat) (frame : List Byte) : List Output :=
  match rep with
  | 0 => []
  | k + 1 => .event .prepareTx :: .event (.txBuffer frame) :: txEvents k frame

/-- PM.TX from step 2 on, for a region that fits the buffer (R175). -/
def sendFrame (s : State) (rep : Byte) (order : Word) (frame : List Byte) : State :=
  if s.caps.txcap < frame.length then respond s .ok (be32 0)
  else respond ((s.setLastSentOrder order).deliver (txEvents rep.toNat frame)) .ok (be32 order)

/-- `tx_packet`: PM.TX as a function on states (R175). -/
def txPacket (s : State) (id : Half) (rep : Byte) (data : List Byte) : State :=
  if s.caps.txcap < Config.hdrSize + data.length then respond s .ok (be32 0)
  else
    let order := s.pm.lastSentOrder + 1
    sendFrame s rep order (frameOf (buildRegion id data order))

/-! ## The receive path -/

/-- Sub-step a: `current_overruns++` (R182). -/
def countOverrun (s : State) : State :=
  s.setStats { s.pm.stats with currentOverruns := s.pm.stats.currentOverruns + 1 }

/-- Sub-step b: `decode_errors++` (R182). -/
def countDecodeError (s : State) : State :=
  s.setStats { s.pm.stats with decodeErrors := s.pm.stats.decodeErrors + 1 }

/-- Sub-step e: `crc_errors++` (R182). -/
def countCrcError (s : State) : State :=
  s.setStats { s.pm.stats with crcErrors := s.pm.stats.crcErrors + 1 }

/-- Sub-steps c and f: `length_errors++` (R182). -/
def countLengthError (s : State) : State :=
  s.setStats { s.pm.stats with lengthErrors := s.pm.stats.lengthErrors + 1 }

/-- Sub-step g, equal: `rx_redundant_packets++` (R185). -/
def countRedundant (s : State) : State :=
  s.setStats { s.pm.stats with rxRedundantPackets := s.pm.stats.rxRedundantPackets + 1 }

/-- Sub-step g, greater: the frame is accepted and dispatched (R185). -/
def acceptPacket (s : State) (h : Header) (payload : List Byte) : State :=
  let counted := s.setStats
    { s.pm.stats with
      rxDroppedPackets := s.pm.stats.rxDroppedPackets + (h.order - 1 - s.pm.lastReceivedOrder)
      rxPackets := s.pm.stats.rxPackets + 1 }
  emit (counted.setLastReceivedOrder h.order) (.rxPacket payload h)

/-- Sub-step g: sequence classification, unsigned on 32 bits (R185). -/
def classify (s : State) (h : Header) (payload : List Byte) : State :=
  if h.order = s.pm.lastReceivedOrder then countRedundant s
  else if h.order.toNat < s.pm.lastReceivedOrder.toNat then pmReset s
  else acceptPacket s h payload

/-- Sub-steps c to g on a decoded region (R182). -/
def checkRegion (s : State) (region : List Byte) : State :=
  if region.length < Config.hdrSize then countLengthError s
  else
    let h := parseHeader region
    if frameCrc region ≠ h.crc then countCrcError s
    else if (regionPayload region).length ≠ h.len.toNat then countLengthError s
    else classify s h (regionPayload region)

/-- `finish_rx()`, sub-steps a to g (R182). -/
def finishRx (s : State) : State :=
  if haveMatch s.reader then
    let x := dec (spanWith s.reader) true
    if x.1 = .ok then checkRegion s x.2 else countDecodeError s
  else countOverrun s

/-- Sub-step h, first part: fold `current_overruns` into `total_overruns` (R183). -/
def foldOverruns (s : State) : State :=
  s.setStats
    { s.pm.stats with
      currentOverruns := 0
      totalOverruns := s.pm.stats.totalOverruns + s.pm.stats.currentOverruns }

/-- Sub-step h, the epilogue of every attempt: fold, reset the reader, re-feed the triggering byte (R183). -/
def epilogue (s : State) (b : Byte) : State :=
  let folded := foldOverruns s
  folded.setReader (frUpdate folded.caps.rxcap (frReset folded.reader) b).1

/-- `rx_byte(b)`: PM.RX as a function on states, before its response (R181). -/
def rxByte (s : State) (b : Byte) : State :=
  let fed := s.setReader (frUpdate s.caps.rxcap s.reader b).1
  if frClosed fed.caps.rxcap fed.reader then epilogue (finishRx fed) b else fed

/-! ## The commands -/

/-- PM.RST (R187). -/
def execPmRst (s : State) : Host.Outcome State Fault Refusal :=
  .next (respond (pmReset s) .ok [])

/-- PM.RX (R181). -/
def execPmRx (b : Byte) (s : State) : Host.Outcome State Fault Refusal :=
  .next (respond (rxByte s b) .ok [])

/-- PM.TX (R175). -/
def execPmTx (id : Half) (rep : Byte) (data : List Byte) (s : State) : Host.Outcome State Fault Refusal :=
  .next (txPacket s id rep data)

/-- PM.STAT (R188). -/
def execPmStat (b : Byte) (s : State) : Host.Outcome State Fault Refusal :=
  .next
    (match statusReg s b.toNat with
     | some v => respond s .ok (be32 v)
     | none => respond s .illegal [])

end Sys2Proof.Machine
end

