-- ==== Sys2Proof/Syntax.lean ====
section
/-! DEFINITION. The 15 commands of LSFC as abstract commands: a mnemonic with its operands (spec 30_encoding.md rule
R77). The vector length `n` is implied by the list (rule R87). -/

namespace Sys2Proof

/-- One constructor per row of spec/opcode_table.json. -/
inductive Instr where
  /-- COBS.ENC, opcode 0x10, format V (R103). -/
  | cobsEnc (data : List Byte)
  /-- COBS.DEC, opcode 0x11, format DV (R107). -/
  | cobsDec (final : Bool) (data : List Byte)
  /-- CRC.INIT, opcode 0x20, format N (R136). -/
  | crcInit
  /-- CRC.UPD, opcode 0x21, format B, `b` the data byte (R137). -/
  | crcUpd (b : Byte)
  /-- CRC.FIN, opcode 0x22, format N (R138). -/
  | crcFin
  /-- CRC.TBL, opcode 0x23, format B, `b` the table index (R139). -/
  | crcTbl (b : Byte)
  /-- FR.RST, opcode 0x30, format N (R156). -/
  | frRst
  /-- FR.UPD, opcode 0x31, format B, `b` the received byte (R157). -/
  | frUpd (b : Byte)
  /-- FR.STAT, opcode 0x32, format N (R158). -/
  | frStat
  /-- FR.GETD, opcode 0x33, format N (R159). -/
  | frGetd
  /-- FR.GET, opcode 0x34, format N (R160). -/
  | frGet
  /-- PM.RST, opcode 0x40, format N (R187). -/
  | pmRst
  /-- PM.RX, opcode 0x41, format B, `b` the received byte (R181). -/
  | pmRx (b : Byte)
  /-- PM.TX, opcode 0x42, format TX, `rep` the repeat count, `data` the serialised payload (R175). -/
  | pmTx (id : Half) (rep : Byte) (data : List Byte)
  /-- PM.STAT, opcode 0x43, format B, `b` the status register index (R188). -/
  | pmStat (b : Byte)
  deriving DecidableEq, Repr

end Sys2Proof
end

