-- ==== Sys2Proof/Machine/Dispatch.lean ====
section
/-! DEFINITION. `exec`: one arm per command, each one direct call of its meaning (spec 30_encoding.md rule R77). -/

namespace Sys2Proof.Machine

/-- One command as one atomic step (00_scope.md R15). -/
def exec (i : Instr) (s : State) : Host.Outcome State Fault Refusal :=
  match i with
  | .cobsEnc data => Sys2Proof.Machine.execCobsEnc data s
  | .cobsDec final data => Sys2Proof.Machine.execCobsDec final data s
  | .crcInit => Sys2Proof.Machine.execCrcInit s
  | .crcUpd b => Sys2Proof.Machine.execCrcUpd b s
  | .crcFin => Sys2Proof.Machine.execCrcFin s
  | .crcTbl b => Sys2Proof.Machine.execCrcTbl b s
  | .frRst => Sys2Proof.Machine.execFrRst s
  | .frUpd b => Sys2Proof.Machine.execFrUpd b s
  | .frStat => Sys2Proof.Machine.execFrStat s
  | .frGetd => Sys2Proof.Machine.execFrGetd s
  | .frGet => Sys2Proof.Machine.execFrGet s
  | .pmRst => Sys2Proof.Machine.execPmRst s
  | .pmRx b => Sys2Proof.Machine.execPmRx b s
  | .pmTx id rep data => Sys2Proof.Machine.execPmTx id rep data s
  | .pmStat b => Sys2Proof.Machine.execPmStat b s

end Sys2Proof.Machine
end

