-- ==== Sys2Proof/Machine/Operands.lean ====
section
/-! DEFINITION. The operand fields of the five packet formats N, B, V, DV, TX: what follows the opcode byte, read and
written (spec 30_encoding.md rules R71 to R76), and the named reasons for which a packet is illegal (rule R78). -/

namespace Sys2Proof.Machine

/-- Why a command packet is illegal (R78). The reason is a name only: the answer is status ILLEGAL for each. Where more
than one holds, the decoder names the first it meets (log entry 8). -/
inductive Illegal where
  /-- (a) the packet is empty. -/
  | emptyPacket
  /-- (b) the opcode is not one of the 15. -/
  | unknownOpcode
  /-- (c) the packet is shorter than the fixed part of its format. -/
  | truncated
  /-- (d) the packet's length differs from the length of R79. -/
  | wrongLength
  /-- (e) COBS.DEC with a non-zero bit in bits 7:1 of byte 1. -/
  | reservedBits
  /-- (f) COBS.ENC with n above 65277. -/
  | vectorTooLong
  /-- (g) PM.STAT with b above 10. -/
  | statusIndex
  deriving DecidableEq, Repr

/-- Format N: no operand (R71). -/
def parseN (rest : List Byte) : Except Illegal Unit :=
  match rest with
  | [] => .ok ()
  | _ :: _ => .error .wrongLength

/-- Format B: one byte operand (R72). -/
def parseB (rest : List Byte) : Except Illegal Byte :=
  match rest with
  | [] => .error .truncated
  | [b] => .ok b
  | _ :: _ :: _ => .error .wrongLength

/-- A byte vector whose length field is the two bytes `hi`, `lo` (R76). -/
def parseVector (hi lo : Byte) (data : List Byte) : Except Illegal (List Byte) :=
  if (unbe16 [hi, lo]).toNat = data.length then .ok data else .error .wrongLength

/-- Format V: a byte vector (R73). -/
def parseV (rest : List Byte) : Except Illegal (List Byte) :=
  match rest with
  | hi :: lo :: data => parseVector hi lo data
  | _ => .error .truncated

/-- Format DV: the flag `final` in bit 0 of a byte whose bits 7:1 must be 0, and a byte vector (R74). -/
def parseDV (rest : List Byte) : Except Illegal (Bool × List Byte) :=
  match rest with
  | flags :: hi :: lo :: data =>
    if flags.extractLsb' 1 7 = 0 then (parseVector hi lo data).map (fun d => (flags.getLsbD 0, d))
    else .error .reservedBits
  | _ => .error .truncated

/-- Format TX: `id`, `rep` and a byte vector (R75). -/
def parseTX (rest : List Byte) : Except Illegal (Half × Byte × List Byte) :=
  match rest with
  | idHi :: idLo :: rep :: hi :: lo :: data =>
    (parseVector hi lo data).map (fun d => (unbe16 [idHi, idLo], rep, d))
  | _ => .error .truncated

/-- The bytes of a vector operand: its length field and its data (R73). -/
def vectorField (data : List Byte) : List Byte :=
  lengthField data.length ++ data

/-- The byte 1 of format DV: bits 7:1 zero, bit 0 the flag (R74). -/
def finalField (final : Bool) : Byte :=
  if final then 0x01 else 0x00

end Sys2Proof.Machine
end

