-- ==== Sys2Proof/WellFormed.lean ====
section
/-! DEFINITION. Which abstract commands a command packet can carry: the vector length fits its 16-bit field, COBS.ENC's
is at most NMAX and PM.STAT's index names a status register (spec 30_encoding.md rules R73 to R75, R78 f and g). -/

namespace Sys2Proof

/-- The check: the command is one that some legal packet encodes (R77, R78). -/
def Instr.wellFormed (i : Instr) : Bool :=
  match i with
  | .cobsEnc data => data.length ≤ Config.nmax
  | .cobsDec _ data => data.length ≤ Config.capMax
  | .crcInit => true
  | .crcUpd _ => true
  | .crcFin => true
  | .crcTbl _ => true
  | .frRst => true
  | .frUpd _ => true
  | .frStat => true
  | .frGetd => true
  | .frGet => true
  | .pmRst => true
  | .pmRx _ => true
  | .pmTx _ _ data => data.length ≤ Config.capMax
  | .pmStat b => b.toNat ≤ 10

/-- The command is one that some legal packet encodes, as a decidable proposition. -/
abbrev Instr.WellFormed (i : Instr) : Prop :=
  i.wellFormed = true

end Sys2Proof
end

