-- ==== Sys2Proof/Decode.lean ====
section
/-! DEFINITION. The opcode map, the decoder of command packets and the encoder (spec 30_encoding.md rules R70 to R79).
The decoder is total: every byte string is one command with its operands or illegal by a named reason. -/

namespace Sys2Proof

open Sys2Proof.Machine

/-- The five packet formats (R70). -/
inductive Format where
  | n | b | v | dv | tx
  deriving DecidableEq, Repr

/-- The fifteen opcodes by name (R77). -/
inductive Op where
  | cobsEnc | cobsDec
  | crcInit | crcUpd | crcFin | crcTbl
  | frRst | frUpd | frStat | frGetd | frGet
  | pmRst | pmRx | pmTx | pmStat
  deriving DecidableEq, Repr

/-- One row of the opcode map of R77. -/
structure OpRow where
  code     : Byte
  op       : Op
  format   : Format
  mnemonic : String
  deriving DecidableEq, Repr

/-- The opcode map, in the order of R77. -/
def opTable : List OpRow :=
  [ ⟨0x10, .cobsEnc, .v,  "COBS.ENC"⟩,
    ⟨0x11, .cobsDec, .dv, "COBS.DEC"⟩,
    ⟨0x20, .crcInit, .n,  "CRC.INIT"⟩,
    ⟨0x21, .crcUpd,  .b,  "CRC.UPD"⟩,
    ⟨0x22, .crcFin,  .n,  "CRC.FIN"⟩,
    ⟨0x23, .crcTbl,  .b,  "CRC.TBL"⟩,
    ⟨0x30, .frRst,   .n,  "FR.RST"⟩,
    ⟨0x31, .frUpd,   .b,  "FR.UPD"⟩,
    ⟨0x32, .frStat,  .n,  "FR.STAT"⟩,
    ⟨0x33, .frGetd,  .n,  "FR.GETD"⟩,
    ⟨0x34, .frGet,   .n,  "FR.GET"⟩,
    ⟨0x40, .pmRst,   .n,  "PM.RST"⟩,
    ⟨0x41, .pmRx,    .b,  "PM.RX"⟩,
    ⟨0x42, .pmTx,    .tx, "PM.TX"⟩,
    ⟨0x43, .pmStat,  .b,  "PM.STAT"⟩ ]

/-- The row an opcode byte selects; `op` is matched on all 8 bits (R77). -/
def opRow (code : Byte) : Option OpRow :=
  opTable.find? (fun r => r.code == code)

/-- The number of bytes of the fixed part of a format, opcode included (R71 to R75, R78 c). -/
def Format.fixedLength (f : Format) : Nat :=
  match f with
  | .n => 1
  | .b => 2
  | .v => 3
  | .dv => 4
  | .tx => 6

/-- The length a packet must have, computed from its leading bytes (R79). -/
def packetLength (p : List Byte) : Option Nat :=
  match p with
  | [] => none
  | code :: rest =>
    match opRow code with
    | none => none
    | some row =>
      match row.format, rest with
      | .n, _ => some 1
      | .b, _ => some 2
      | .v, hi :: lo :: _ => some (3 + (unbe16 [hi, lo]).toNat)
      | .v, _ => none
      | .dv, _ :: hi :: lo :: _ => some (4 + (unbe16 [hi, lo]).toNat)
      | .dv, _ => none
      | .tx, _ :: _ :: _ :: hi :: lo :: _ => some (6 + (unbe16 [hi, lo]).toNat)
      | .tx, _ => none

/-- The command an opcode and the bytes after it make (R77), or why they make none (R78). -/
def decodeOperands (op : Op) (rest : List Byte) : Except Illegal Instr :=
  match op with
  | .cobsEnc =>
    match parseV rest with
    | .ok d => if d.length ≤ Config.nmax then .ok (.cobsEnc d) else .error .vectorTooLong
    | .error e => .error e
  | .cobsDec => (parseDV rest).map (fun x => .cobsDec x.1 x.2)
  | .crcInit => (parseN rest).map (fun _ => .crcInit)
  | .crcUpd => (parseB rest).map .crcUpd
  | .crcFin => (parseN rest).map (fun _ => .crcFin)
  | .crcTbl => (parseB rest).map .crcTbl
  | .frRst => (parseN rest).map (fun _ => .frRst)
  | .frUpd => (parseB rest).map .frUpd
  | .frStat => (parseN rest).map (fun _ => .frStat)
  | .frGetd => (parseN rest).map (fun _ => .frGetd)
  | .frGet => (parseN rest).map (fun _ => .frGet)
  | .pmRst => (parseN rest).map (fun _ => .pmRst)
  | .pmRx => (parseB rest).map .pmRx
  | .pmTx => (parseTX rest).map (fun x => .pmTx x.1 x.2.1 x.2.2)
  | .pmStat =>
    match parseB rest with
    | .ok b => if b.toNat ≤ 10 then .ok (.pmStat b) else .error .statusIndex
    | .error e => .error e

/-- The command a packet holds, or why it is illegal (R77 to R79). -/
def decode (p : List Byte) : Except Illegal Instr :=
  match p with
  | [] => .error .emptyPacket
  | code :: rest =>
    match opRow code with
    | none => .error .unknownOpcode
    | some row => decodeOperands row.op rest

/-- The packet of a command (R71 to R75, R77). -/
def encode (i : Instr) : List Byte :=
  match i with
  | .cobsEnc data => 0x10 :: vectorField data
  | .cobsDec final data => 0x11 :: finalField final :: vectorField data
  | .crcInit => [0x20]
  | .crcUpd b => [0x21, b]
  | .crcFin => [0x22]
  | .crcTbl b => [0x23, b]
  | .frRst => [0x30]
  | .frUpd b => [0x31, b]
  | .frStat => [0x32]
  | .frGetd => [0x33]
  | .frGet => [0x34]
  | .pmRst => [0x40]
  | .pmRx b => [0x41, b]
  | .pmTx id rep data => 0x42 :: (be16 id ++ rep :: vectorField data)
  | .pmStat b => [0x43, b]

/-- The bytes of an opcode-table word: bit 0 is the least significant bit of the first byte (log entry 9). -/
def tableBytes (nbits w : Nat) : List Byte :=
  (List.range ((nbits + 7) / 8)).map (fun k => BitVec.ofNat 8 (w / 2 ^ (8 * k)))

/-- The packet of an opcode-table word: its bytes, and zero bytes up to the length R79 gives (log entry 9). -/
def tablePacket (nbits w : Nat) : List Byte :=
  let p := tableBytes nbits w
  match packetLength (p ++ List.replicate 5 0) with
  | some len => p ++ List.replicate (len - p.length) 0
  | none => p

/-- The command the decoder reads from an opcode-table word, `none` where the packet is illegal. -/
def decodeTableWord (nbits w : Nat) : Option Instr :=
  match decode (tablePacket nbits w) with
  | .ok i => some i
  | .error _ => none

end Sys2Proof
end

