-- ==== Sys2Proof/Machine/Port.lean ====
section
/-! DEFINITION. The command port: taking what the host presents next and answering an illegal packet (spec 30_encoding.md
rules R70, R78; 20_memory.md rule R64; 70_reset_and_hazards.md rules R243, R250, R251). -/

namespace Sys2Proof.Machine

/-- What the core finds on the command port, with the state in which it has taken it. -/
inductive Fetched where
  /-- Nothing is presented: the core is idle (R225, R251). -/
  | idle
  /-- The presentation overlaps (R64). -/
  | overlap
  /-- An illegal packet (R78). -/
  | illegal (s : State)
  /-- A command. -/
  | command (i : Instr) (s : State)

/-- The host presents one more packet, before everything it still has to present. -/
def presentNext (s : State) (packet : List Byte) : State :=
  s.setPending (.packet packet :: s.pending)

/-- The host will present these packets, in order, after everything presented before (10_state.md R21, R251). -/
def present (s : State) (packets : List (List Byte)) : State :=
  s.setPending (s.pending ++ packets.map .packet)

/-- Take what is presented next and decode it. -/
def fetch (s : State) : Fetched :=
  match s.pending with
  | [] => .idle
  | .overlapping _ :: _ => .overlap
  | .packet p :: rest =>
    match decode p with
    | .ok i => .command i (s.setPending rest)
    | .error _ => .illegal (s.setPending rest)

/-- The answer to an illegal packet: status ILLEGAL, empty body, no state change, no event (R78, R80). -/
def answerIllegal (s : State) : State :=
  respond s .illegal []

end Sys2Proof.Machine
end

