-- ==== Sys2Proof/Machine/Step.lean ====
section
/-! DEFINITION. One step of the machine: the core takes the next command packet the host presents and executes it to its
response (spec 00_scope.md rule R15). Where nothing is presented the core is idle and the step changes nothing
(60_exceptions.md rule R225, 70_reset_and_hazards.md rule R251; log entry 2). -/

namespace Sys2Proof.Machine

/-- One step. -/
def step (s : State) : Host.Outcome State Fault Refusal :=
  match fetch s with
  | .idle => .next s
  | .overlap => .refused .overlappingCommands
  | .illegal taken => .next (answerIllegal taken)
  | .command i taken => exec i taken

/-- The state in which the host presents, next, the packet of an opcode-table word (log entries 7 and 9). -/
def State.withFetchWord (s : State) (nbits w : Nat) : State :=
  presentNext s (tablePacket nbits w)

end Sys2Proof.Machine
end

