-- ==== Sys2Proof/Machine/Assembler.lean ====
section
/-! DEFINITION. The assembler notation of a command (spec 30_encoding.md rule R87) and the pseudo-instructions with their
expansions (rule R88). -/

namespace Sys2Proof.Machine

/-! ## Text (R87) -/

/-- One upper-case hexadecimal digit. -/
def hexDigit (n : Nat) : Char :=
  ['0', '1', '2', '3', '4', '5', '6', '7', '8', '9', 'A', 'B', 'C', 'D', 'E', 'F'].getD n '?'

/-- A number as `digits` hexadecimal digits. -/
def hexDigits (digits n : Nat) : List Char :=
  match digits with
  | 0 => []
  | k + 1 => hexDigits k (n / 16) ++ [hexDigit (n % 16)]

/-- A byte operand, `0x..`. -/
def byteText (b : Byte) : List Char :=
  '0' :: 'x' :: hexDigits 2 b.toNat

/-- A number in decimal, for values below 1000. -/
def decimalText (n : Nat) : List Char :=
  if n < 10 then [hexDigit n]
  else if n < 100 then [hexDigit (n / 10), hexDigit (n % 10)]
  else [hexDigit (n / 100), hexDigit (n / 10 % 10), hexDigit (n % 10)]

/-- A vector as a bracketed list of bytes. -/
def vectorText (data : List Byte) : List Char :=
  '[' :: (((data.map byteText).intersperse [' ']).flatten ++ [']'])

/-- The operands of a command, comma separated (R87). PM.STAT's index is decimal as in the rule's own example. -/
def operandText (i : Instr) : List Char :=
  match i with
  | .cobsEnc data => ' ' :: vectorText data
  | .cobsDec final data => " final=".toList ++ (if final then '1' else '0') :: ", ".toList ++ vectorText data
  | .crcInit => []
  | .crcUpd b => ' ' :: byteText b
  | .crcFin => []
  | .crcTbl b => ' ' :: byteText b
  | .frRst => []
  | .frUpd b => ' ' :: byteText b
  | .frStat => []
  | .frGetd => []
  | .frGet => []
  | .pmRst => []
  | .pmRx b => ' ' :: byteText b
  | .pmTx id rep data =>
    " id=0x".toList ++ hexDigits 4 id.toNat ++ ", rep=".toList ++ decimalText rep.toNat ++ ", ".toList ++ vectorText data
  | .pmStat b => ' ' :: decimalText b.toNat

/-- The mnemonic of a command, from the opcode map (R77). -/
def mnemonicText (i : Instr) : List Char :=
  match encode i with
  | [] => []
  | code :: _ =>
    match opRow code with
    | some row => row.mnemonic.toList
    | none => []

/-- A command as a line of a program listing (R87). -/
def commandText (i : Instr) : List Char :=
  mnemonicText i ++ operandText i

/-! ## Pseudo-instructions (R88) -/

/-- `CRC.BUF [b0 ... bk]`. -/
def pseudoCrcBuf (bs : List Byte) : List Instr :=
  .crcInit :: (bs.map .crcUpd ++ [.crcFin])

/-- `PM.RXS [b0 ... bk]`. -/
def pseudoPmRxs (bs : List Byte) : List Instr :=
  bs.map .pmRx

/-- `FR.UPDS [b0 ... bk]`. -/
def pseudoFrUpds (bs : List Byte) : List Instr :=
  bs.map .frUpd

/-- `PM.TX id=..., [..]` without `rep`: the default is one transmission. -/
def pseudoPmTx (id : Half) (data : List Byte) : List Instr :=
  [.pmTx id 1 data]

end Sys2Proof.Machine
end

