-- ==== Sys2Proof/Machine/Program.lean ====
section
/-! DEFINITION. A run: a finite list of commands executed left to right (spec 10_state.md rule R21, 20_memory.md rule
R62, 70_reset_and_hazards.md rule R251), and the views of what it has handed over, by port (30_encoding.md rule R85). -/

namespace Sys2Proof.Machine

/-- The commands of a list executed in order, stopping where one does not answer a next state. -/
def execAll (is : List Instr) (s : State) : Host.Outcome State Fault Refusal :=
  match is with
  | [] => .next s
  | i :: rest =>
    match exec i s with
    | .next t => execAll rest t
    | .fault r => .fault r
    | .refused r => .refused r

/-- What one output puts on the response port. -/
def onResponsePort (o : Output) : Option (List Byte) :=
  match o with
  | .response r => some r
  | .event _ => none

/-- What one output puts on the transmit port: `PrepareTx` and `TxBuffer` (R85). -/
def onTransmitPort (o : Output) : Option Event :=
  match o with
  | .event .prepareTx => some .prepareTx
  | .event (.txBuffer bytes) => some (.txBuffer bytes)
  | .event (.rxPacket _ _) => none
  | .response _ => none

/-- What one output puts on the dispatch port: `RxPacket` (R85). -/
def onDispatchPort (o : Output) : Option (List Byte × Header) :=
  match o with
  | .event (.rxPacket payload h) => some (payload, h)
  | .event .prepareTx => none
  | .event (.txBuffer _) => none
  | .response _ => none

/-- The list of responses of a run (R251). -/
def responses (s : State) : List (List Byte) :=
  s.trace.filterMap onResponsePort

/-- The events on the transmit port, in emission order. -/
def transmitted (s : State) : List Event :=
  s.trace.filterMap onTransmitPort

/-- The events on the dispatch port, in emission order. -/
def dispatched (s : State) : List (List Byte × Header) :=
  s.trace.filterMap onDispatchPort

end Sys2Proof.Machine
end

