-- ==== Sys2Proof/Safety.lean ====
section
/-! DEFINITION. The terms claims are stated in: the invariants of spec 10_state.md rule R34, the illegal packets of
30_encoding.md rule R78 written from the rule's own list, and the three situations a PM.RX can find (43_packet_manager.md
rules R181, R182). -/

namespace Sys2Proof.Machine

/-! ## Invariants -/

/-- The capacities are legal (00_scope.md R9). -/
abbrev CapsInv (c : Capacities) : Prop :=
  (1 ≤ c.rxcap ∧ c.rxcap ≤ 65535) ∧ (1 ≤ c.txcap ∧ c.txcap ≤ 65535)

/-- The reader's storage is in canonical form and inside its array (00_scope.md R13: no index outside the capacity). -/
abbrev StorageInv (c : Capacities) (r : Reader) : Prop :=
  r.buf.wf ∧ ∀ cell ∈ r.buf, cell.1 < c.rxcap

/-- Items 1 to 3 of R34. -/
abbrev ReaderInv (c : Capacities) (r : Reader) : Prop :=
  r.len ≤ c.rxcap ∧ r.m ≤ 1 ∧
  (r.m = 1 → 1 ≤ r.len ∧ r.buf.read (r.len - 1) = 0x00 ∧ ∀ b ∈ memRead r.buf 0 (r.len - 1), b ≠ 0x00) ∧
  (r.m = 0 → ∀ b ∈ memRead r.buf 0 r.len, b ≠ 0x00)

/-- What holds after hardware reset and is preserved by every command (R34; item 4 is the last part). -/
abbrev CoreInv (s : State) : Prop :=
  CapsInv s.caps ∧ StorageInv s.caps s.reader ∧ ReaderInv s.caps s.reader ∧ s.pm.stats.currentOverruns = 0

/-! ## Illegal packets, from the list of R78 -/

/-- (b): the opcode values that are none of the 15. -/
def unknownOpcode (op : Nat) : Bool :=
  op ≤ 0x0F || (0x12 ≤ op && op ≤ 0x1F) || (0x24 ≤ op && op ≤ 0x2F) || (0x35 ≤ op && op ≤ 0x3F) || 0x44 ≤ op

/-- (c): the length of the fixed part of the opcode's format (R71 to R75). -/
def fixedPart (op : Nat) : Nat :=
  if op = 0x10 then 3
  else if op = 0x11 then 4
  else if op = 0x42 then 6
  else if op ∈ [0x20, 0x22, 0x30, 0x32, 0x33, 0x34, 0x40] then 1
  else 2

/-- The byte of a packet at an index, as a number. -/
def packetByte (p : List Byte) (k : Nat) : Nat :=
  (p.getD k 0).toNat

/-- `n`, from the two bytes before the vector, most-significant first (R76, R79). -/
def vectorLength (op : Nat) (p : List Byte) : Nat :=
  if op ∈ [0x10, 0x11, 0x42] then packetByte p (fixedPart op - 2) * 256 + packetByte p (fixedPart op - 1) else 0

/-- The cases (a) to (g) of R78. -/
def illegalPacket (p : List Byte) : Bool :=
  match p with
  | [] => true
  | code :: _ =>
    unknownOpcode code.toNat
      || p.length < fixedPart code.toNat
      || p.length ≠ fixedPart code.toNat + vectorLength code.toNat p
      || (code == 0x11 && packetByte p 1 / 2 ≠ 0)
      || (code == 0x10 && 65277 < vectorLength code.toNat p)
      || (code == 0x43 && 10 < packetByte p 1)

/-! ## What a PM.RX finds -/

/-- The byte is appended and no attempt runs: no match, and not full even with it (R181 step 2). -/
abbrev Accumulates (s : State) (b : Byte) : Prop :=
  s.reader.m = 0 ∧ s.reader.len + 1 < s.caps.rxcap ∧ b ≠ 0x00

/-- An attempt runs on a full reader without a match: it was full before, or the byte fills it (R182 step a, R190). -/
abbrev Overruns (s : State) (b : Byte) : Prop :=
  s.reader.m = 0 ∧ (s.reader.len = s.caps.rxcap ∨ (s.reader.len + 1 = s.caps.rxcap ∧ b ≠ 0x00))

/-- An attempt runs on the matched span `x`: it stood in the reader already, so that `b` was rejected, or `b` is the delimiter
that completes it (R181, R182 step b). -/
abbrev AttemptOn (s : State) (b : Byte) (x : List Byte) : Prop :=
  (s.reader.m = 1 ∧ x = spanWith s.reader) ∨
  (s.reader.m = 0 ∧ s.reader.len < s.caps.rxcap ∧ b = 0x00 ∧ x = spanWith s.reader ++ [0x00])

/-- What the epilogue leaves in the reader: the triggering byte alone (R183). -/
abbrev HoldsOnly (r : Reader) (b : Byte) : Prop :=
  r.len = 1 ∧ spanWith r = [b] ∧ r.m = if b = 0x00 then 1 else 0

/-- The region passes the checks c to f of an attempt (R182): at least a header, the CRC and the length agree. -/
abbrev ValidRegion (region : List Byte) : Prop :=
  12 ≤ region.length ∧ frameCrc region = (parseHeader region).crc ∧
  (regionPayload region).length = (parseHeader region).len.toNat

end Sys2Proof.Machine
end

