-- ==== Sys2Proof/Certificates/Slice0/Obligations.lean ====
section
/-! DEFINITION. The statements for the provers, one definition each, after the numbered rules of the spec. -/

open Sys2Proof Sys2Proof.Machine

/-! ## Encoding -/

/-- Decoding the packet of any command that a packet can carry gives the command back, every operand at every value
(30_encoding.md R71 to R77). -/
def Obligations.DecodeEncodeRoundTrip : Prop :=
  ∀ i : Instr, i.WellFormed → decode (encode i) = .ok i

/-- A packet that decodes is the one packet of its command, so no bit of it is dropped (R71 to R77). -/
def Obligations.DecodedPacketIsItsEncoding : Prop :=
  ∀ (p : List Byte) (i : Instr), decode p = .ok i → i.WellFormed ∧ encode i = p

/-- Every byte string is either one command, of the length its leading bytes give, or illegal by the list of R78 (R79). -/
def Obligations.EveryPacketIsOneCommandOrIllegal : Prop :=
  ∀ p : List Byte,
    (illegalPacket p = true ∧ ∃ e, decode p = .error e) ∨
    (illegalPacket p = false ∧ ∃ code rest i, p = code :: rest ∧ decode p = .ok i ∧ i.WellFormed ∧
      packetLength p = some p.length ∧ p.length = fixedPart code.toNat + vectorLength code.toNat p)

/-- Packets written out from the spec's encodings, one for each family and format, and illegal neighbours
(95_test_vectors.md sections 1.1, 2.2, 2.5, 2.7). -/
def Obligations.SampleEncodings : Prop :=
  decode [0x10, 0x00, 0x04, 0x11, 0x22, 0x00, 0x33] = .ok (.cobsEnc [0x11, 0x22, 0x00, 0x33]) ∧
  decode [0x11, 0x01, 0x00, 0x02, 0x02, 0x41] = .ok (.cobsDec true [0x02, 0x41]) ∧
  decode [0x21, 0x31] = .ok (.crcUpd 0x31) ∧
  decode [0x32] = .ok .frStat ∧
  decode [0x42, 0x00, 0x01, 0x02, 0x00, 0x03, 0xAA, 0x00, 0x55] = .ok (.pmTx 0x0001 2 [0xAA, 0x00, 0x55]) ∧
  decode [0x43, 0x0A] = .ok (.pmStat 10) ∧
  decode [0x43, 0x0B] = .error .statusIndex ∧
  decode [0x11, 0x02, 0x00, 0x01, 0x01] = .error .reservedBits ∧
  decode [0x20, 0x00] = .error .wrongLength

/-! ## The command port -/

/-- When the packet presented next decodes to a command, the step is `exec` of that command on the state with the packet taken
from the port; nothing else is done around it (00_scope.md R15). -/
def Obligations.StepRunsDecodedCommand : Prop :=
  ∀ (s : State) (p : List Byte) (rest : List Presentation) (i : Instr),
    s.pending = .packet p :: rest → decode p = .ok i → step s = exec i { s with pending := rest }

/-- An illegal packet is answered with status ILLEGAL, an empty body, no state change and no event (R78). -/
def Obligations.IllegalPacketIsAnsweredIllegal : Prop :=
  ∀ (s : State) (p : List Byte) (rest : List Presentation),
    s.pending = .packet p :: rest → illegalPacket p = true →
    step s = .next { s with pending := rest, trace := s.trace ++ [.response [0x01]] }

/-- With nothing presented the core is idle and a step changes nothing (R225, R251; the step of an idle core is the model's own
choice, log entry 2); an overlapping presentation is refused (R64). -/
def Obligations.IdleAndOverlappingPort : Prop :=
  (∀ s : State, s.pending = [] → step s = .next s) ∧
  (∀ (s : State) (ps : List (List Byte)) (rest : List Presentation),
    s.pending = .overlapping ps :: rest → step s = .refused .overlappingCommands)

/-- Running as many steps as packets presented is executing the commands of those packets left to right, whatever is
presented after them (10_state.md R21; 20_memory.md R62; 70_reset_and_hazards.md R251). That the port is a list of presented
packets is the model's own choice (log entry 1). -/
def Obligations.RunExecutesPresentedCommandsInOrder : Prop :=
  ∀ (is : List Instr) (s : State) (rest : List Presentation),
    (∀ i ∈ is, i.WellFormed) → s.pending = is.map (fun i => .packet (encode i)) ++ rest →
    Sys2Proof.core.run is.length s = execAll is { s with pending := rest }

/-- Every command, in every state, completes with its events and then exactly one response; ILLEGAL and PRECOND change nothing,
ILLEGAL answers no command a packet can carry and PRECOND only FR.GET without a match (R80, R210). -/
def Obligations.EveryCommandAnswersOnce : Prop :=
  ∀ (i : Instr) (s : State), ∃ (t : State) (evs : List Event) (st : Byte) (body : List Byte),
    exec i s = .next t ∧
    t.trace = s.trace ++ evs.map .event ++ [.response (st :: body)] ∧
    t.pending = s.pending ∧
    (st = 0x00 ∨ st = 0x01 ∨ st = 0x02) ∧
    (st = 0x01 → ¬ i.WellFormed) ∧
    (st = 0x02 ↔ i = .frGet ∧ s.reader.m ≠ 1) ∧
    (st ≠ 0x00 → body = [] ∧ evs = [] ∧ t = { s with trace := t.trace })

/-- Only PM.TX emits PrepareTx and TxBuffer; only PM.RX emits RxPacket, at most one per command; no event puts a command on
the port (R86). -/
def Obligations.EventsComeOnlyFromThePacketManager : Prop :=
  ∀ (i : Instr) (s t : State) (evs : List Event) (r : List Byte),
    exec i s = .next t → t.trace = s.trace ++ evs.map .event ++ [.response r] →
    t.pending = s.pending ∧
    (.prepareTx ∈ evs → ∃ id rep data, i = .pmTx id rep data) ∧
    (∀ bytes, .txBuffer bytes ∈ evs → ∃ id rep data, i = .pmTx id rep data) ∧
    (∀ payload h, .rxPacket payload h ∈ evs → (∃ b, i = .pmRx b) ∧ evs = [.rxPacket payload h])

/-- No command reads back what was handed over before or what is presented after it: with another trace and another port it
does the same and hands over the same (10_state.md R32; 20_memory.md R62). -/
def Obligations.OutcomeDoesNotReadTraceOrPending : Prop :=
  ∀ (i : Instr) (s t : State), exec i s = .next t →
    ∃ outs : List Output, t.trace = s.trace ++ outs ∧
      ∀ (tr : List Output) (ps : List Presentation),
        exec i { s with trace := tr, pending := ps } = .next { t with trace := tr ++ outs, pending := ps }

/-! ## Invariants and reset -/

/-- From every state that meets the invariants of R34 a step gives a state that meets them (with the model's own canonical form
of the byte array, log entry 5). -/
def Obligations.StepKeepsInvariant : Prop :=
  ∀ s t : State, CoreInv s → step s = .next t → CoreInv t

/-- The state after hardware reset meets the invariants, for all legal capacities (R34). -/
def Obligations.ResetMeetsInvariant : Prop :=
  (∀ c : Capacities, CapsInv c → CoreInv (State.resetWith c)) ∧ CoreInv State.reset

/-- What hardware reset leaves (R33, R240): the values the spec gives, for every pair of capacities, and that `State.reset` is
such a state at legal capacities. -/
def Obligations.ResetValues : Prop :=
  (∀ c : Capacities,
    (State.resetWith c).caps = c ∧ (State.resetWith c).crcAcc = 0xFFFFFFFF ∧
    (State.resetWith c).reader.len = 0 ∧ (State.resetWith c).reader.m = 0 ∧
    (State.resetWith c).pm.lastSentOrder = 0 ∧ (State.resetWith c).pm.lastReceivedOrder = 0 ∧
    (∀ k : Nat, k ≤ 10 → statusReg (State.resetWith c) k = some 0) ∧
    (1 ≤ c.rxcap → haveMatch (State.resetWith c).reader = false ∧ isFull c.rxcap (State.resetWith c).reader = false) ∧
    transmitted (State.resetWith c) = [] ∧ dispatched (State.resetWith c) = []) ∧
  (∃ c : Capacities, CapsInv c ∧ State.reset = State.resetWith c)

/-- No step changes a capacity (R32). -/
def Obligations.CapacitiesNeverChange : Prop :=
  ∀ s t : State, step s = .next t → t.caps = s.caps

/-! ## Frames -/

/-- Who writes what: `CRC_ACC` only CRC.INIT and CRC.UPD; the Frame Reader only FR.RST, FR.UPD and PM.RX; the Packet Manager's
registers only PM.RST, PM.RX and PM.TX, the last only `LAST_SENT_ORDER` (R22, R27, R228, R241). -/
def Obligations.EachRegisterHasItsWriters : Prop :=
  ∀ (i : Instr) (s t : State), exec i s = .next t →
    (i ≠ .crcInit → (∀ b, i ≠ .crcUpd b) → t.crcAcc = s.crcAcc) ∧
    (i ≠ .frRst → (∀ b, i ≠ .frUpd b) → (∀ b, i ≠ .pmRx b) → t.reader = s.reader) ∧
    (i ≠ .pmRst → (∀ b, i ≠ .pmRx b) → (∀ id rep data, i ≠ .pmTx id rep data) → t.pm = s.pm) ∧
    (∀ id rep data, i = .pmTx id rep data →
      t.pm.stats = s.pm.stats ∧ t.pm.lastReceivedOrder = s.pm.lastReceivedOrder)

/-- COBS.ENC, COBS.DEC, CRC.FIN, CRC.TBL, FR.STAT, FR.GETD, FR.GET and PM.STAT change no state and may be repeated with the
same result; CRC.INIT and FR.RST are idempotent (R60). -/
def Obligations.ReadsChangeNothing : Prop :=
  (∀ (i : Instr) (s t : State),
    ((∃ d, i = .cobsEnc d) ∨ (∃ f d, i = .cobsDec f d) ∨ i = .crcFin ∨ (∃ b, i = .crcTbl b) ∨
      i = .frStat ∨ i = .frGetd ∨ i = .frGet ∨ (∃ b, i = .pmStat b)) →
    exec i s = .next t →
    t = { s with trace := t.trace } ∧
    ∃ outs, t.trace = s.trace ++ outs ∧ exec i t = .next { t with trace := t.trace ++ outs }) ∧
  (∀ (i : Instr) (s t u : State), (i = .crcInit ∨ i = .frRst) →
    exec i s = .next t → exec i t = .next u → u = { t with trace := u.trace })

/-- Frame of FR.UPD: the one byte it stores goes to index `FR_LEN`, and only when the byte is taken; nothing else of the machine
but `FR_LEN` and `FR_M` changes (R151, R157). -/
def Obligations.FrUpdStoresAtMostOneByte : Prop :=
  ∀ (b : Byte) (s t : State), exec (.frUpd b) s = .next t →
    t.caps = s.caps ∧ t.crcAcc = s.crcAcc ∧ t.pm = s.pm ∧ t.pending = s.pending ∧
    ∀ a : Nat, ¬ (frClosed s.caps.rxcap s.reader = false ∧ a = s.reader.len) →
      t.reader.buf.read a = s.reader.buf.read a

/-- PM.RX stores `b` at index `FR_LEN` when the byte is taken and at index 0 when an attempt ran, and no other byte; `CRC_ACC`,
the capacities and the port are unchanged (R181, R183, R22, R51). The two stored bytes are stated where the invariants of R34
hold, the frame in every state. -/
def Obligations.PmRxStoresOnlyTheReceivedByte : Prop :=
  ∀ (b : Byte) (s t : State), exec (.pmRx b) s = .next t →
    t.caps = s.caps ∧ t.crcAcc = s.crcAcc ∧ t.pending = s.pending ∧
    (∀ a : Nat,
      ¬ (frClosed s.caps.rxcap s.reader = false ∧ a = s.reader.len) →
      ¬ (frClosed s.caps.rxcap (frUpdate s.caps.rxcap s.reader b).1 = true ∧ a = 0) →
      t.reader.buf.read a = s.reader.buf.read a) ∧
    (CoreInv s →
      (frClosed s.caps.rxcap s.reader = false → t.reader.buf.read s.reader.len = b) ∧
      (frClosed s.caps.rxcap (frUpdate s.caps.rxcap s.reader b).1 = true → t.reader.buf.read 0 = b))

/-! ## COBS Codec -/

/-- The round trip of R108: with and without the terminator, and no 0x00 inside an encoding. -/
def Obligations.CobsRoundTrip : Prop :=
  ∀ bytes : List Byte,
    dec (enc bytes) true = (.ok, bytes) ∧
    (∀ f : Bool, dec (enc bytes ++ [0x00]) f = (.ok, bytes)) ∧
    0x00 ∉ enc bytes

/-- The encoding is a sequence of blocks, marker then non-zero run, that ends in a short block; a run of 254 stands for itself
and any other but the last for itself and one zero; the length is `n + 1 + F` with `F` full blocks (R82, R100, R102). -/
def Obligations.EncodingIsABlockSequence : Prop :=
  enc [] = [0x01] ∧
  ∀ bytes : List Byte, ∃ (runs : List (List Byte)) (last : List Byte),
    enc bytes = (runs ++ [last]).flatMap (fun r => BitVec.ofNat 8 (r.length + 1) :: r) ∧
    (∀ r ∈ runs ++ [last], ∀ b ∈ r, b ≠ 0x00) ∧
    (∀ r ∈ runs, r.length ≤ 254) ∧ last.length ≤ 253 ∧
    bytes = runs.flatMap (fun r => if r.length = 254 then r else r ++ [0x00]) ++ last ∧
    (enc bytes).length = bytes.length + 1 + runs.countP (fun r => r.length == 254) ∧
    runs.countP (fun r => r.length == 254) ≤ bytes.length / 254 ∧
    0x00 ∉ enc bytes

/-- Where the encoder writes a marker (R101): at a real zero, after 254 literals without consuming a zero, and once at the end of
the buffer. -/
def Obligations.EncoderBlockRules : Prop :=
  ∀ run : List Byte, (∀ b ∈ run, b ≠ 0x00) →
    (run.length ≤ 253 → ∀ rest, enc (run ++ 0x00 :: rest) = BitVec.ofNat 8 (run.length + 1) :: (run ++ enc rest)) ∧
    (run.length = 254 → ∀ rest, enc (run ++ rest) = 0xFF :: (run ++ enc rest)) ∧
    (run.length ≤ 253 → enc run = BitVec.ofNat 8 (run.length + 1) :: run)

/-- Every exit of the decoder of R105: on no length byte, on a zero length byte, inside a run, after a full block and after a
short block. -/
def Obligations.DecoderRules : Prop :=
  ∀ f : Bool,
    dec [] f = (.zeroLengthBlock, []) ∧
    (∀ rest, dec (0x00 :: rest) f = (.unexpectedZero, [])) ∧
    ∀ (marker : Byte) (run : List Byte), marker ≠ 0x00 → (∀ b ∈ run, b ≠ 0x00) →
      (run.length < marker.toNat - 1 →
        dec (marker :: run) f = (.tooShort, run) ∧
        ∀ rest, dec (marker :: (run ++ 0x00 :: rest)) f = (.unexpectedZero, run)) ∧
      (run.length = marker.toNat - 1 → marker = 0xFF → ∀ rest,
        dec (marker :: (run ++ rest)) f = ((dec rest f).1, run ++ (dec rest f).2)) ∧
      (run.length = marker.toNat - 1 → marker ≠ 0xFF →
        dec (marker :: run) f = (if f then .ok else .zeroMissing, run) ∧
        (∀ rest, dec (marker :: (run ++ 0x00 :: rest)) f = (.ok, run)) ∧
        (∀ next rest, next ≠ 0x00 →
          dec (marker :: (run ++ next :: rest)) f =
            ((dec (next :: rest) f).1, run ++ 0x00 :: (dec (next :: rest) f).2)))

/-- Decoding a zero-free string as final, and with its terminator, agree (R109). -/
def Obligations.TerminatorAgreement : Prop :=
  ∀ (x : List Byte) (f : Bool), 0x00 ∉ x →
    ((dec x true).1 = .ok → dec (x ++ [0x00]) f = dec x true) ∧
    ((dec x true).1 = .tooShort → (dec (x ++ [0x00]) f).1 = .unexpectedZero) ∧
    ((dec x true).1 = .zeroLengthBlock → (dec (x ++ [0x00]) f).1 = .unexpectedZero) ∧
    ((dec x true).1 = .ok ∨ (dec x true).1 = .tooShort ∨ (dec x true).1 = .zeroLengthBlock)

/-- On zero-free final inputs the decoder accepts canonical encodings only, and it is not injective because it does not look past
a terminator (R110). -/
def Obligations.DecoderAcceptsCanonicalOnly : Prop :=
  (∀ x out : List Byte, 0x00 ∉ x → dec x true = (.ok, out) → x = enc out) ∧
  (∀ f : Bool, dec [0x02, 0x41, 0x00, 0x09] f = (.ok, [0x41]) ∧ dec [0x02, 0x41, 0x00] f = (.ok, [0x41]) ∧
    dec [0x02, 0x41] true = (.ok, [0x41]))

/-- COBS.ENC answers the encoding with its terminator, its true length before it, and changes nothing (R103, R81). -/
def Obligations.CobsEncAnswersEncoding : Prop :=
  ∀ (data : List Byte) (s : State), data.length ≤ 65277 →
    ∃ hi lo : Byte,
      exec (.cobsEnc data) s =
        .next { s with trace := s.trace ++ [.response (0x00 :: hi :: lo :: (enc data ++ [0x00]))] } ∧
      hi.toNat * 256 + lo.toNat = (enc data).length + 1

/-- COBS.DEC answers `Ok` with the decoded bytes and their true length, or the code alone, and changes nothing; the decoded bytes
are no longer than the input (R106, R107, R81). -/
def Obligations.CobsDecAnswersDecoding : Prop :=
  (cobsResultCode .ok = 0 ∧ cobsResultCode .zeroMissing = 1 ∧ cobsResultCode .tooShort = 2 ∧
    cobsResultCode .unexpectedZero = 3 ∧ cobsResultCode .zeroLengthBlock = 4) ∧
  ∀ (final : Bool) (data : List Byte) (s : State), data.length ≤ 65535 →
    (∀ out, dec data final = (.ok, out) →
      out.length ≤ data.length ∧
      ∃ hi lo : Byte,
        exec (.cobsDec final data) s =
          .next { s with trace := s.trace ++ [.response (0x00 :: 0x00 :: hi :: lo :: out)] } ∧
        hi.toNat * 256 + lo.toNat = out.length) ∧
    (∀ res out, dec data final = (res, out) → res ≠ .ok →
      exec (.cobsDec final data) s = .next { s with trace := s.trace ++ [.response [0x00, cobsResultCode res]] })

/-! ## CRC Engine -/

/-- CRC.INIT, CRC.UPD, CRC.FIN and CRC.TBL: the accumulator, the response, and nothing else (R133, R134, R136 to R139). -/
def Obligations.CrcCommandResults : Prop :=
  ∀ (s : State) (b : Byte),
    exec .crcInit s = .next { s with crcAcc := 0xFFFFFFFF, trace := s.trace ++ [.response [0x00]] } ∧
    exec (.crcUpd b) s =
      .next { s with
        crcAcc := tbl ((s.crcAcc ^^^ b.setWidth 32).extractLsb' 0 8) ^^^ (s.crcAcc >>> 8)
        trace := s.trace ++ [.response [0x00]] } ∧
    exec .crcFin s =
      .next { s with trace := s.trace ++ [.response (0x00 :: be32 (s.crcAcc ^^^ 0xFFFFFFFF))] } ∧
    exec (.crcTbl b) s = .next { s with trace := s.trace ++ [.response (0x00 :: be32 (tbl b))] }

/-- The remainder table: eight conditional shift-and-xor steps against the bit-reversed polynomial, and the sample values (R131). -/
def Obligations.RemainderTable : Prop :=
  (0x04C11DB7 : Word).reverse = 0xEDB88320 ∧
  (∀ b : Byte,
    tbl b = (fun r : Word => if r.getLsbD 0 then (r >>> 1) ^^^ 0xEDB88320 else r >>> 1)^[8] (b.setWidth 32)) ∧
  tbl 0x00 = 0x00000000 ∧ tbl 0x01 = 0x77073096 ∧ tbl 0x02 = 0xEE0E612C ∧ tbl 0x80 = 0xEDB88320 ∧
  tbl 0xFF = 0x2D02EF8D

/-- CRC32 of a byte string, and that streaming it through CRC.INIT, one CRC.UPD per byte and CRC.FIN gives the same value, in
whatever pieces (R135). -/
def Obligations.CrcStreamEqualsWholeBuffer : Prop :=
  (∀ bs : List Byte, crc32 bs = bs.foldl upd 0xFFFFFFFF ^^^ 0xFFFFFFFF) ∧
  crc32 [] = 0x00000000 ∧
  (∀ (bs : List Byte) (s : State),
    execAll (pseudoCrcBuf bs) s =
      .next { s with
        crcAcc := bs.foldl upd 0xFFFFFFFF
        trace := s.trace ++ List.replicate (bs.length + 1) (.response [0x00])
          ++ [.response (0x00 :: be32 (crc32 bs))] }) ∧
  (∀ pieces : List (List Byte),
    pieces.foldl (fun acc piece => piece.foldl upd acc) 0xFFFFFFFF ^^^ 0xFFFFFFFF = crc32 pieces.flatten)

/-- The known answer: CRC-32/ISO-HDLC of ASCII "123456789" (R140). -/
def Obligations.CrcKnownAnswer : Prop :=
  crc32 [0x31, 0x32, 0x33, 0x34, 0x35, 0x36, 0x37, 0x38, 0x39] = 0xCBF43926

/-- Two byte strings that differ in one byte only have different CRCs, so every single-bit error changes it (R191, K4). -/
def Obligations.SingleByteChangeChangesCrc : Prop :=
  ∀ (before after : List Byte) (x y : Byte), x ≠ y → crc32 (before ++ x :: after) ≠ crc32 (before ++ y :: after)

/-- A region whose CRC agrees with its header no longer agrees when one byte of it, the stored CRC's included, is changed
(R191). -/
def Obligations.SingleByteDamageIsDetected : Prop :=
  ∀ (before after : List Byte) (x y : Byte), x ≠ y → 12 ≤ (before ++ x :: after).length →
    frameCrc (before ++ x :: after) = (parseHeader (before ++ x :: after)).crc →
    frameCrc (before ++ y :: after) ≠ (parseHeader (before ++ y :: after)).crc

/-! ## Frame Reader -/

/-- FR.UPD rejects a byte when the reader is full or matched, and otherwise appends it and advances the match (R151, R157). -/
def Obligations.FrUpdTakesOrRejects : Prop :=
  ∀ (s : State) (b : Byte), CoreInv s →
    ((s.reader.len = s.caps.rxcap ∨ s.reader.m = 1) →
      exec (.frUpd b) s = .next { s with trace := s.trace ++ [.response [0x00, 0x00]] }) ∧
    (s.reader.len < s.caps.rxcap → s.reader.m = 0 →
      ∃ r : Reader,
        exec (.frUpd b) s = .next { s with reader := r, trace := s.trace ++ [.response [0x00, 0x01]] } ∧
        r.len = s.reader.len + 1 ∧ spanWith r = spanWith s.reader ++ [b] ∧
        r.m = (if b = 0x00 then 1 else 0) ∧ (haveMatch r = true ↔ b = 0x00) ∧
        (isFull s.caps.rxcap r = true ↔ s.reader.len + 1 = s.caps.rxcap))

/-- FR.RST empties the reader, leaves the bytes of `FR_BUF`, clears both flags and changes nothing else (R153, R156). -/
def Obligations.FrRstEmptiesTheReader : Prop :=
  ∀ s : State,
    exec .frRst s =
      .next { s with reader := { s.reader with len := 0, m := 0 }, trace := s.trace ++ [.response [0x00]] } ∧
    haveMatch { s.reader with len := 0, m := 0 } = false ∧
    (1 ≤ s.caps.rxcap → isFull s.caps.rxcap { s.reader with len := 0, m := 0 } = false)

/-- FR.STAT answers the two flags and the fill level and changes nothing (R158). -/
def Obligations.FrStatAnswersFlagsAndLevel : Prop :=
  ∀ s : State, CoreInv s →
    ∃ flags hi lo : Byte,
      exec .frStat s = .next { s with trace := s.trace ++ [.response [0x00, flags, hi, lo]] } ∧
      flags.toNat = (if s.reader.m = 1 then 1 else 0) + 2 * (if s.reader.len = s.caps.rxcap then 1 else 0) ∧
      hi.toNat * 256 + lo.toNat = s.reader.len

/-- FR.GETD answers the span with its delimiter, its true length before it, and changes nothing (R155, R159). -/
def Obligations.FrGetdAnswersTheSpan : Prop :=
  ∀ s : State, CoreInv s →
    ∃ hi lo : Byte,
      exec .frGetd s = .next { s with trace := s.trace ++ [.response (0x00 :: hi :: lo :: spanWith s.reader)] } ∧
      hi.toNat * 256 + lo.toNat = s.reader.len ∧ (spanWith s.reader).length = s.reader.len ∧
      ∀ k < s.reader.len, (spanWith s.reader)[k]? = some (s.reader.buf.read k)

/-- FR.GET answers the span less its delimiter when there is a match, and status PRECOND when there is none; it changes nothing
(R155, R160). -/
def Obligations.FrGetAnswersTheSpanOrPrecond : Prop :=
  ∀ s : State, CoreInv s →
    (s.reader.m = 1 →
      ∃ hi lo : Byte,
        exec .frGet s =
          .next { s with trace := s.trace ++ [.response (0x00 :: hi :: lo :: (spanWith s.reader).dropLast)] } ∧
        hi.toNat * 256 + lo.toNat = s.reader.len - 1 ∧ spanWith s.reader = (spanWith s.reader).dropLast ++ [0x00]) ∧
    (s.reader.m = 0 → exec .frGet s = .next { s with trace := s.trace ++ [.response [0x02]] })

/-- Reader exhaustion: RXCAP non-zero bytes fed to an empty reader are all taken, leave it full without a match, and the next byte
is rejected (R161). -/
def Obligations.ReaderExhaustion : Prop :=
  ∀ (s : State) (bs : List Byte), 1 ≤ s.caps.rxcap → s.caps.rxcap ≤ 65535 → s.reader.len = 0 → s.reader.m = 0 →
    bs.length = s.caps.rxcap → (∀ b ∈ bs, b ≠ 0x00) →
    ∃ t : State,
      execAll (pseudoFrUpds bs) s = .next t ∧
      t.trace = s.trace ++ List.replicate s.caps.rxcap (.response [0x00, 0x01]) ∧
      t.reader.len = s.caps.rxcap ∧ t.reader.m = 0 ∧
      isFull s.caps.rxcap t.reader = true ∧ haveMatch t.reader = false ∧
      (∃ hi lo : Byte,
        exec .frStat t = .next { t with trace := t.trace ++ [.response [0x00, 0x02, hi, lo]] } ∧
        hi.toNat * 256 + lo.toNat = s.caps.rxcap) ∧
      ∀ b : Byte, exec (.frUpd b) t = .next { t with trace := t.trace ++ [.response [0x00, 0x00]] }

/-! ## Packet Manager: the send path -/

/-- Multi-byte fields, header fields among them, are written and read most-significant byte first (00_scope.md R12; 20_memory.md
R54, R55). -/
def Obligations.FieldsAreBigEndian : Prop :=
  ∀ a b c d : Byte,
    be16 (a ++ b) = [a, b] ∧ unbe16 [a, b] = a ++ b ∧
    be32 (a ++ b ++ c ++ d) = [a, b, c, d] ∧ unbe32 [a, b, c, d] = a ++ b ++ c ++ d

/-- Parsing a region, byte by byte: the four header fields, the payload after them, and the CRC over everything with the four
bytes of `crc` taken as zero; a built region agrees with its own CRC and length (R171, R173). -/
def Obligations.RegionParsing : Prop :=
  (∀ (c0 c1 c2 c3 l0 l1 i0 i1 o0 o1 o2 o3 : Byte) (payload : List Byte),
    parseHeader (c0 :: c1 :: c2 :: c3 :: l0 :: l1 :: i0 :: i1 :: o0 :: o1 :: o2 :: o3 :: payload) =
      { crc := c0 ++ c1 ++ c2 ++ c3, len := l0 ++ l1, id := i0 ++ i1, order := o0 ++ o1 ++ o2 ++ o3 } ∧
    regionPayload (c0 :: c1 :: c2 :: c3 :: l0 :: l1 :: i0 :: i1 :: o0 :: o1 :: o2 :: o3 :: payload) = payload ∧
    frameCrc (c0 :: c1 :: c2 :: c3 :: l0 :: l1 :: i0 :: i1 :: o0 :: o1 :: o2 :: o3 :: payload) =
      crc32 (0x00 :: 0x00 :: 0x00 :: 0x00 :: l0 :: l1 :: i0 :: i1 :: o0 :: o1 :: o2 :: o3 :: payload)) ∧
  (∀ (id : Half) (payload : List Byte) (order : Word), payload.length ≤ 65535 →
    frameCrc (buildRegion id payload order) = (parseHeader (buildRegion id payload order)).crc ∧
    (regionPayload (buildRegion id payload order)).length = (parseHeader (buildRegion id payload order)).len.toNat)

/-- A region built for a payload parses back to its header and payload, and its CRC and length agree (R172, R173). -/
def Obligations.BuiltRegionParsesBack : Prop :=
  ∀ (id : Half) (payload : List Byte) (order : Word), payload.length ≤ 65535 →
    (buildRegion id payload order).length = 12 + payload.length ∧
    (parseHeader (buildRegion id payload order)).id = id ∧
    (parseHeader (buildRegion id payload order)).order = order ∧
    (parseHeader (buildRegion id payload order)).len.toNat = payload.length ∧
    regionPayload (buildRegion id payload order) = payload ∧
    frameCrc (buildRegion id payload order) = (parseHeader (buildRegion id payload order)).crc

/-- The frame of a region: `ENC` of the header with its CRC and the payload, then 0x00, the only 0x00 byte and the last one
(R84). -/
def Obligations.FrameHasOneZeroItsLast : Prop :=
  ∀ (id : Half) (payload : List Byte) (order : Word),
    frameOf (buildRegion id payload order) =
      enc (be32 (frameCrc (buildRegion id payload order)) ++ be16 (BitVec.ofNat 16 payload.length) ++ be16 id
        ++ be32 order ++ payload) ++ [0x00] ∧
    (frameOf (buildRegion id payload order)).count 0x00 = 1

/-- PM.TX sends exactly when the encoded form with its terminator fits TXCAP: then it stores the next order, emits `rep` pairs
PrepareTx, TxBuffer of one frame and answers the order; otherwise it answers 0 and changes nothing (R175 to R178). -/
def Obligations.PmTxSendsExactlyWhenTheFrameFits : Prop :=
  ∀ (id : Half) (rep : Byte) (data : List Byte) (s : State),
    ((enc (buildRegion id data (s.pm.lastSentOrder + 1))).length + 1 ≤ s.caps.txcap →
      exec (.pmTx id rep data) s =
        .next { s with
          pm := { s.pm with lastSentOrder := s.pm.lastSentOrder + 1 }
          trace := s.trace
            ++ (List.replicate rep.toNat
                [.event .prepareTx,
                 .event (.txBuffer (enc (buildRegion id data (s.pm.lastSentOrder + 1)) ++ [0x00]))]).flatten
            ++ [.response (0x00 :: be32 (s.pm.lastSentOrder + 1))] }) ∧
    (s.caps.txcap < (enc (buildRegion id data (s.pm.lastSentOrder + 1))).length + 1 →
      exec (.pmTx id rep data) s =
        .next { s with trace := s.trace ++ [.response [0x00, 0x00, 0x00, 0x00, 0x00]] })

/-- A sufficient condition for a send to succeed, whatever the payload's bytes (R178). -/
def Obligations.PmTxSucceedsWithMargin : Prop :=
  ∀ (id : Half) (rep : Byte) (data : List Byte) (s : State),
    (12 + data.length + (12 + data.length) / 254 + 2 ≤ s.caps.txcap ∨
      (12 + data.length < 254 ∧ data.length + 14 ≤ s.caps.txcap)) →
    ∃ t : State, exec (.pmTx id rep data) s = .next t ∧ t.pm.lastSentOrder = s.pm.lastSentOrder + 1

/-- Sequence wrap: from `LAST_SENT_ORDER = 0xFFFFFFFF` a send that fits stores 0 and answers 0, with the frame of order 0 (R179). -/
def Obligations.PmTxOrderWraps : Prop :=
  ∀ (id : Half) (rep : Byte) (data : List Byte) (s : State), s.pm.lastSentOrder = 0xFFFFFFFF →
    (enc (buildRegion id data 0)).length + 1 ≤ s.caps.txcap →
    exec (.pmTx id rep data) s =
      .next { s with
        pm := { s.pm with lastSentOrder := 0 }
        trace := s.trace
          ++ (List.replicate rep.toNat
              [.event .prepareTx, .event (.txBuffer (enc (buildRegion id data 0) ++ [0x00]))]).flatten
          ++ [.response [0x00, 0x00, 0x00, 0x00, 0x00]] }

/-! ## Packet Manager: the receive path -/

/-- The three situations a PM.RX can find exclude each other and leave none out (R181, R182). -/
def Obligations.PmRxSituations : Prop :=
  ∀ (s : State) (b : Byte), CoreInv s →
    (Accumulates s b ∨ Overruns s b ∨ ∃ x, AttemptOn s b x) ∧
    ¬ (Accumulates s b ∧ Overruns s b) ∧ ¬ (Accumulates s b ∧ ∃ x, AttemptOn s b x) ∧
    ¬ (Overruns s b ∧ ∃ x, AttemptOn s b x)

/-- Still accumulating: the byte is appended, nothing else happens (R181 steps 1 and 2). -/
def Obligations.PmRxAccumulates : Prop :=
  ∀ (s : State) (b : Byte), CoreInv s → Accumulates s b →
    ∃ r : Reader,
      exec (.pmRx b) s = .next { s with reader := r, trace := s.trace ++ [.response [0x00]] } ∧
      r.len = s.reader.len + 1 ∧ r.m = 0 ∧ spanWith r = spanWith s.reader ++ [b]

/-- Overrun: `total_overruns` goes up by one, the span is discarded, the reader restarts with the byte (R182 a, R183, R190). -/
def Obligations.PmRxOverrun : Prop :=
  ∀ (s : State) (b : Byte), CoreInv s → Overruns s b →
    ∃ r : Reader, HoldsOnly r b ∧
      exec (.pmRx b) s =
        .next { s with
          reader := r
          pm := { s.pm with stats := { s.pm.stats with totalOverruns := s.pm.stats.totalOverruns + 1 } }
          trace := s.trace ++ [.response [0x00]] }

/-- Decode error: any result but `Ok` counts in `decode_errors` alone (R182 b, R183). -/
def Obligations.PmRxDecodeError : Prop :=
  ∀ (s : State) (b : Byte) (x : List Byte), CoreInv s → AttemptOn s b x → (dec x true).1 ≠ .ok →
    ∃ r : Reader, HoldsOnly r b ∧
      exec (.pmRx b) s =
        .next { s with
          reader := r
          pm := { s.pm with stats := { s.pm.stats with decodeErrors := s.pm.stats.decodeErrors + 1 } }
          trace := s.trace ++ [.response [0x00]] }

/-- Length error: fewer than 12 decoded bytes, or, with the CRC right, a payload length other than `len`; `length_errors` alone
counts it (R182 c and f, R183). -/
def Obligations.PmRxLengthError : Prop :=
  ∀ (s : State) (b : Byte) (x region : List Byte), CoreInv s → AttemptOn s b x → dec x true = (.ok, region) →
    (region.length < 12 ∨
      (12 ≤ region.length ∧ frameCrc region = (parseHeader region).crc ∧
        (regionPayload region).length ≠ (parseHeader region).len.toNat)) →
    ∃ r : Reader, HoldsOnly r b ∧
      exec (.pmRx b) s =
        .next { s with
          reader := r
          pm := { s.pm with stats := { s.pm.stats with lengthErrors := s.pm.stats.lengthErrors + 1 } }
          trace := s.trace ++ [.response [0x00]] }

/-- CRC error: `crc_errors` alone counts it, whatever `len` and `order` say (R182 e, R183, R215). -/
def Obligations.PmRxCrcError : Prop :=
  ∀ (s : State) (b : Byte) (x region : List Byte), CoreInv s → AttemptOn s b x → dec x true = (.ok, region) →
    12 ≤ region.length → frameCrc region ≠ (parseHeader region).crc →
    ∃ r : Reader, HoldsOnly r b ∧
      exec (.pmRx b) s =
        .next { s with
          reader := r
          pm := { s.pm with stats := { s.pm.stats with crcErrors := s.pm.stats.crcErrors + 1 } }
          trace := s.trace ++ [.response [0x00]] }

/-- Duplicate: a valid frame of the last accepted order is counted and not dispatched (R185). -/
def Obligations.PmRxDuplicate : Prop :=
  ∀ (s : State) (b : Byte) (x region : List Byte), CoreInv s → AttemptOn s b x → dec x true = (.ok, region) →
    ValidRegion region → (parseHeader region).order = s.pm.lastReceivedOrder →
    ∃ r : Reader, HoldsOnly r b ∧
      exec (.pmRx b) s =
        .next { s with
          reader := r
          pm := { s.pm with
            stats := { s.pm.stats with rxRedundantPackets := s.pm.stats.rxRedundantPackets + 1 } }
          trace := s.trace ++ [.response [0x00]] }

/-- Regression: a valid frame of a lower order zeroes both sequence counters and all statistics but `state_resets`, which goes up
by one, and is not dispatched (R185, R186, R247). -/
def Obligations.PmRxRegression : Prop :=
  ∀ (s : State) (b : Byte) (x region : List Byte), CoreInv s → AttemptOn s b x → dec x true = (.ok, region) →
    ValidRegion region → (parseHeader region).order.toNat < s.pm.lastReceivedOrder.toNat →
    ∃ r : Reader, HoldsOnly r b ∧
      exec (.pmRx b) s =
        .next { s with
          reader := r
          pm := { lastSentOrder := 0, lastReceivedOrder := 0,
                  stats := { currentOverruns := 0, totalOverruns := 0, decodeErrors := 0, crcErrors := 0,
                             lengthErrors := 0, rxRedundantPackets := 0, rxDroppedPackets := 0, rxPackets := 0,
                             stateResets := s.pm.stats.stateResets + 1 } }
          trace := s.trace ++ [.response [0x00]] }

/-- Acceptance: a valid frame of a higher order is dispatched once with its header as received, `rx_packets` goes up by one,
`rx_dropped_packets` by the gap, and the order is stored (R185). -/
def Obligations.PmRxAcceptsAndDispatches : Prop :=
  ∀ (s : State) (b : Byte) (x region : List Byte), CoreInv s → AttemptOn s b x → dec x true = (.ok, region) →
    ValidRegion region → s.pm.lastReceivedOrder.toNat < (parseHeader region).order.toNat →
    ∃ r : Reader, HoldsOnly r b ∧
      exec (.pmRx b) s =
        .next { s with
          reader := r
          pm := { s.pm with
            lastReceivedOrder := (parseHeader region).order
            stats := { s.pm.stats with
              rxDroppedPackets := s.pm.stats.rxDroppedPackets
                + BitVec.ofNat 32 ((parseHeader region).order.toNat - 1 - s.pm.lastReceivedOrder.toNat)
              rxPackets := s.pm.stats.rxPackets + 1 } }
          trace := s.trace
            ++ [.event (.rxPacket (regionPayload region) (parseHeader region)), .response [0x00]] }

/-- The decode results that can occur inside PM.RX are `Ok` and `UnexpectedZero` only (R211, C5). -/
def Obligations.PmRxDecodeResults : Prop :=
  ∀ (s : State) (b : Byte) (x : List Byte), CoreInv s → AttemptOn s b x →
    (dec x true).1 = .ok ∨ (dec x true).1 = .unexpectedZero

/-- The one-byte span: a reader that holds a matched span of one byte, as every attempt started by a delimiter leaves it, rejects
the next byte, counts one decode error and restarts with that byte (R189, R246). -/
def Obligations.OneByteSpanCountsADecodeError : Prop :=
  ∀ (s : State) (b : Byte), CoreInv s → s.reader.len = 1 → s.reader.m = 1 →
    ∃ r : Reader, HoldsOnly r b ∧
      exec (.pmRx b) s =
        .next { s with
          reader := r
          pm := { s.pm with stats := { s.pm.stats with decodeErrors := s.pm.stats.decodeErrors + 1 } }
          trace := s.trace ++ [.response [0x00]] }

/-- A frame built for a payload, fed byte by byte to an empty reader it fits, is accepted when its order is above the last one: its
payload and header are dispatched unchanged, once, and only with the last byte (R173, R181 to R185, R108). -/
def Obligations.TransmittedFrameIsReceived : Prop :=
  ∀ (s : State) (id : Half) (payload : List Byte) (order : Word), CoreInv s → s.reader.len = 0 → s.reader.m = 0 →
    payload.length ≤ 65535 → (frameOf (buildRegion id payload order)).length ≤ s.caps.rxcap →
    s.pm.lastReceivedOrder.toNat < order.toNat →
    ∃ t : State,
      execAll (pseudoPmRxs (frameOf (buildRegion id payload order))) s = .next t ∧
      HoldsOnly t.reader 0x00 ∧ t.crcAcc = s.crcAcc ∧
      t.pm = { s.pm with
        lastReceivedOrder := order
        stats := { s.pm.stats with
          rxDroppedPackets := s.pm.stats.rxDroppedPackets
            + BitVec.ofNat 32 (order.toNat - 1 - s.pm.lastReceivedOrder.toNat)
          rxPackets := s.pm.stats.rxPackets + 1 } } ∧
      t.trace = s.trace
        ++ List.replicate ((frameOf (buildRegion id payload order)).length - 1) (.response [0x00])
        ++ [.event (.rxPacket payload
              { crc := frameCrc (buildRegion id payload order), len := BitVec.ofNat 16 payload.length, id := id,
                order := order }),
            .response [0x00]]

/-! ## Packet Manager: reset and statistics -/

/-- PM.RST zeroes both sequence counters and `SR[0]` to `SR[7]` and counts one state reset; it leaves the reader and `CRC_ACC`
alone (R186, R187, R241). -/
def Obligations.PmRstResetsThePacketManager : Prop :=
  ∀ s : State,
    exec .pmRst s =
      .next { s with
        pm := { lastSentOrder := 0, lastReceivedOrder := 0,
                stats := { currentOverruns := 0, totalOverruns := 0, decodeErrors := 0, crcErrors := 0,
                           lengthErrors := 0, rxRedundantPackets := 0, rxDroppedPackets := 0, rxPackets := 0,
                           stateResets := s.pm.stats.stateResets + 1 } }
        trace := s.trace ++ [.response [0x00]] }

/-- PM.STAT answers the status register of its index, most-significant byte first, ILLEGAL above 10, and changes nothing (R188,
R27). -/
def Obligations.PmStatAnswersStatusRegister : Prop :=
  ∀ (s : State) (b : Byte),
    (10 < b.toNat → exec (.pmStat b) s = .next { s with trace := s.trace ++ [.response [0x01]] }) ∧
    (∀ (k : Nat) (v : Word), b.toNat = k →
      [s.pm.stats.currentOverruns, s.pm.stats.totalOverruns, s.pm.stats.decodeErrors, s.pm.stats.crcErrors,
        s.pm.stats.lengthErrors, s.pm.stats.rxRedundantPackets, s.pm.stats.rxDroppedPackets, s.pm.stats.rxPackets,
        s.pm.stats.stateResets, s.pm.lastSentOrder, s.pm.lastReceivedOrder][k]? = some v →
      exec (.pmStat b) s = .next { s with trace := s.trace ++ [.response (0x00 :: be32 v)] }) ∧
    (CoreInv s → statusReg s 0 = some 0)
end

