-- ==== Sys2Proof/Laws/Bytes.lean ====
section
/-! SUPPORT. Big-endian fields and their inverses (spec 00_scope.md rule R12): lengths, values and round trips. -/

namespace Sys2Proof.Machine

@[simp] theorem length_be16 (v : Half) : (be16 v).length = 2 := rfl

@[simp] theorem length_be32 (v : Word) : (be32 v).length = 4 := rfl

@[simp] theorem length_lengthField (n : Nat) : (lengthField n).length = 2 := rfl

/-- Two bytes, most-significant first, as a number (R76). -/
theorem unbe_pair (hi lo : Byte) : unbe [hi, lo] = hi.toNat * 256 + lo.toNat := by
  simp [unbe]

/-- The 16-bit field of two bytes has their number. -/
theorem toNat_unbe16_pair (hi lo : Byte) : (unbe16 [hi, lo]).toNat = hi.toNat * 256 + lo.toNat := by
  have h1 := hi.isLt
  have h2 := lo.isLt
  rw [unbe16, unbe_pair, BitVec.toNat_ofNat, Nat.mod_eq_of_lt (by omega)]

/-- The two bytes of a 16-bit field give back its number. -/
theorem unbe_be16 (v : Half) : unbe (be16 v) = v.toNat := by
  have h := v.isLt
  rw [be16, unbe_pair]
  simp only [BitVec.extractLsb'_toNat, Nat.shiftRight_eq_div_pow]
  omega

/-- `unbe16` undoes `be16`. -/
@[simp] theorem unbe16_be16 (v : Half) : unbe16 (be16 v) = v := by
  rw [unbe16, unbe_be16, BitVec.ofNat_toNat, BitVec.setWidth_eq]

/-- The four bytes of a 32-bit field give back its number. -/
theorem unbe_be32 (v : Word) : unbe (be32 v) = v.toNat := by
  have h := v.isLt
  simp only [be32, unbe, List.foldl_cons, List.foldl_nil, BitVec.extractLsb'_toNat, Nat.shiftRight_eq_div_pow]
  omega

/-- `unbe32` undoes `be32`. -/
@[simp] theorem unbe32_be32 (v : Word) : unbe32 (be32 v) = v := by
  rw [unbe32, unbe_be32, BitVec.ofNat_toNat, BitVec.setWidth_eq]

/-- `be16` undoes `unbe16` on two bytes. -/
theorem be16_unbe16 (hi lo : Byte) : be16 (unbe16 [hi, lo]) = [hi, lo] := by
  have h1 := hi.isLt
  have h2 := lo.isLt
  have hv := toNat_unbe16_pair hi lo
  simp only [be16, List.cons.injEq, and_true]
  constructor <;> apply BitVec.eq_of_toNat_eq <;>
    simp only [BitVec.extractLsb'_toNat, Nat.shiftRight_eq_div_pow, hv] <;> omega

/-- A length that fits 16 bits is the number of its length field, byte by byte. -/
theorem lengthField_bytes (n : Nat) (h : n ≤ 65535) :
    ∃ hi lo : Byte, lengthField n = [hi, lo] ∧ hi.toNat * 256 + lo.toNat = n := by
  refine ⟨_, _, rfl, ?_⟩
  have := unbe_be16 (BitVec.ofNat 16 n)
  rw [be16, unbe_pair, BitVec.toNat_ofNat, Nat.mod_eq_of_lt (by omega)] at this
  exact this

end Sys2Proof.Machine
end

