-- ==== Sys2Proof/Laws/Cobs.lean ====
section
/-! SUPPORT. Lemmas of the COBS Codec's two loops: what one run of non-zero bytes does to each. Every claim about ENC
and DEC follows from these by cutting the input into runs. -/

namespace Sys2Proof.Machine

/-! ## ENC -/

theorem encLoop_literals (run acc rest : List Byte) (hz : ∀ b ∈ run, b ≠ 0x00)
    (hl : acc.length + run.length ≤ 253) : encLoop (run ++ rest) acc = encLoop rest (acc ++ run) := by
  induction run generalizing acc with
  | nil => simp
  | cons b run ih =>
    have h1 : b ≠ 0x00 := hz b (by simp)
    have h2 : acc.length + 1 ≠ Config.cobsMaxRun := by simp only [List.length_cons, Config.cobsMaxRun] at hl ⊢; omega
    rw [List.cons_append, encLoop, if_neg h1, if_neg h2,
      ih _ (fun c hc => hz c (by simp [hc])) (by simp only [List.length_append, List.length_cons, List.length_nil] at hl ⊢; omega)]
    simp

theorem encLoop_full_run (run rest : List Byte) (hz : ∀ b ∈ run, b ≠ 0x00) (hl : run.length = 254) :
    encLoop (run ++ rest) [] = cobsBlock run ++ encLoop rest [] := by
  obtain ⟨init, b, rfl⟩ : ∃ init b, run = init ++ [b] :=
    ⟨run.dropLast, run.getLast (by rintro rfl; simp at hl), (List.dropLast_append_getLast _).symm⟩
  have hi : init.length = 253 := by simpa using hl
  rw [List.append_assoc, encLoop_literals init [] ([b] ++ rest) (fun c hc => hz c (by simp [hc])) (by simp [hi])]
  have hb : ¬ b = 0#8 := hz b (by simp)
  simp [encLoop, hb, hi, Config.cobsMaxRun]

/-- A byte string is a run of at most 253 and its end, or such a run and a zero, or a run of 254, and the rest. -/
theorem run_cases (bytes : List Byte) :
    ∃ run, (∀ b ∈ run, b ≠ 0x00) ∧
      ((run.length ≤ 253 ∧ bytes = run) ∨ (∃ rest, run.length ≤ 253 ∧ bytes = run ++ 0x00 :: rest) ∨
        ∃ rest, run.length = 254 ∧ bytes = run ++ rest) := by
  suffices h : ∀ (bytes acc : List Byte), (∀ b ∈ acc, b ≠ 0x00) → acc.length ≤ 253 →
      ∃ run, (∀ b ∈ run, b ≠ 0x00) ∧
      ((run.length ≤ 253 ∧ acc ++ bytes = run) ∨ (∃ rest, run.length ≤ 253 ∧ acc ++ bytes = run ++ 0x00 :: rest) ∨
        ∃ rest, run.length = 254 ∧ acc ++ bytes = run ++ rest) from h bytes [] (by simp) (by simp)
  intro bytes
  induction bytes with
  | nil => exact fun acc hz hl => ⟨acc, hz, .inl ⟨hl, by simp⟩⟩
  | cons b rest ih =>
    intro acc hz hl
    by_cases hb : b = 0x00
    · exact ⟨acc, hz, .inr (.inl ⟨rest, hl, by rw [hb]⟩)⟩
    · have hz' : ∀ c ∈ acc ++ [b], c ≠ 0x00 := by
        intro c hc
        rcases List.mem_append.1 hc with hc | hc
        · exact hz c hc
        · rw [List.mem_singleton.1 hc]; exact hb
      by_cases hl' : acc.length = 253
      · exact ⟨acc ++ [b], hz', .inr (.inr ⟨rest, by simp [hl'], by simp⟩)⟩
      · have := ih (acc ++ [b]) hz' (by simp only [List.length_append, List.length_cons, List.length_nil]; omega)
        simpa using this

/-! ## DEC -/

theorem decLoop_literals (f full : Bool) (run rest : List Byte) (more : Nat) (hz : ∀ b ∈ run, b ≠ 0x00) :
    decLoop f (phaseFor (run.length + more) full) (run ++ rest) =
      ((decLoop f (phaseFor more full) rest).1, run ++ (decLoop f (phaseFor more full) rest).2) := by
  induction run with
  | nil => simp
  | cons b run ih =>
    have h1 : b ≠ 0x00 := hz b (by simp)
    have e : (b :: run).length + more = (run.length + more) + 1 := by simp only [List.length_cons]; omega
    rw [e, phaseFor, List.cons_append, decLoop, if_neg h1, ih fun c hc => hz c (by simp [hc])]
    rfl

theorem openBlock_of_length {marker : Byte} {n : Nat} (h : n = marker.toNat - 1) :
    openBlock marker = phaseFor n (marker == 0xFF) := by
  rw [openBlock, h]

theorem phaseFor_zero_full : phaseFor 0 true = .lengthByte := rfl

theorem phaseFor_zero_short : phaseFor 0 false = .shortEnd := rfl

/-- One whole block in front: its run, and then what follows it. -/
theorem dec_block (f : Bool) (marker : Byte) (run rest : List Byte) (hm : marker ≠ 0x00)
    (hz : ∀ b ∈ run, b ≠ 0x00) (hl : run.length = marker.toNat - 1) :
    decLoop f .lengthByte (marker :: (run ++ rest)) =
      ((decLoop f (phaseFor 0 (marker == 0xFF)) rest).1, run ++ (decLoop f (phaseFor 0 (marker == 0xFF)) rest).2) := by
  rw [decLoop, if_neg hm, openBlock_of_length hl]
  exact decLoop_literals f _ run rest 0 hz

/-- The marker of a run of at most 254. -/
theorem marker_of_run {n : Nat} (h : n ≤ 254) :
    (BitVec.ofNat 8 (n + 1)).toNat - 1 = n ∧ BitVec.ofNat 8 (n + 1) ≠ 0x00 ∧
      ((BitVec.ofNat 8 (n + 1) == 0xFF) = decide (n = 254)) := by
  have e : (BitVec.ofNat 8 (n + 1)).toNat = n + 1 := by rw [BitVec.toNat_ofNat]; exact Nat.mod_eq_of_lt (by omega)
  refine ⟨by omega, fun h0 => ?_, ?_⟩
  · rw [h0] at e; simp at e
  · rw [Bool.eq_iff_iff, beq_iff_eq, decide_eq_true_iff]
    constructor
    · intro h0; rw [h0] at e; simp at e; omega
    · rintro rfl; rfl

/-! ## Lengths -/

theorem decLoop_length_le (f : Bool) (phase : DecPhase) (input : List Byte) :
    (decLoop f phase input).2.length ≤ input.length := by
  induction input generalizing phase with
  | nil => cases phase <;> cases f <;> simp [decLoop]
  | cons b rest ih =>
    cases phase with
    | lengthByte =>
      rw [decLoop]
      split
      · simp
      · exact Nat.le_succ_of_le (ih _)
    | literal more full =>
      rw [decLoop]
      split
      · simp
      · simpa [consDecoded] using ih _
    | shortEnd =>
      rw [decLoop]
      split
      · simp
      · simpa [consDecoded] using ih _

theorem encLoop_length_bound (input run : List Byte) (h : run.length ≤ 253) :
    (encLoop input run).length ≤ input.length + run.length + 1 + (input.length + run.length) / 254 := by
  induction input generalizing run with
  | nil => simp [encLoop, cobsBlock]
  | cons b rest ih =>
    rw [encLoop]
    split
    · have := ih [] (by simp)
      simp only [cobsBlock, List.length_append, List.length_cons, List.length_nil] at this ⊢
      omega
    · split
      · next hf =>
        have := ih [] (by simp)
        simp only [cobsBlock, Config.cobsMaxRun, List.length_append, List.length_cons, List.length_nil] at this hf ⊢
        omega
      · next hf =>
        have := ih (run ++ [b]) (by
          simp only [Config.cobsMaxRun, List.length_append, List.length_cons, List.length_nil] at hf ⊢; omega)
        simp only [List.length_append, List.length_cons, List.length_nil] at this ⊢
        omega

theorem encLoop_length_ge (input run : List Byte) : input.length + run.length + 1 ≤ (encLoop input run).length := by
  induction input generalizing run with
  | nil => simp [encLoop, cobsBlock]
  | cons b rest ih =>
    rw [encLoop]
    split
    · have := ih []
      simp only [cobsBlock, List.length_append, List.length_cons, List.length_nil] at this ⊢
      omega
    · split
      · have := ih []
        simp only [cobsBlock, List.length_append, List.length_cons, List.length_nil] at this ⊢
        omega
      · have := ih (run ++ [b])
        simp only [List.length_append, List.length_cons, List.length_nil] at this ⊢
        omega

end Sys2Proof.Machine
end

