-- ==== Sys2Proof/Laws/Crc.lean ====
section
/-! SUPPORT. Lemmas of the CRC Engine: the shift-and-xor step is linear and injective, one UPD is eight steps on the
accumulator with the byte added in, and an update over a joined string is two updates. -/

namespace Sys2Proof.Machine

/-! ## The step -/

theorem crcStep_xor (a b : Word) : crcStep (a ^^^ b) = crcStep a ^^^ crcStep b := by
  simp only [crcStep, BitVec.getLsbD_xor]
  cases a.getLsbD 0 <;> cases b.getLsbD 0 <;> (ext i hi; simp [Bool.xor_comm, Bool.xor_left_comm])

theorem crcStep_top (r : Word) : (crcStep r).getLsbD 31 = r.getLsbD 0 := by
  have h : (r >>> 1).getLsbD 31 = false := by simp
  have hp : Config.crcReversedPoly.getLsbD 31 = true := by decide
  rw [crcStep]
  split
  · next h0 => rw [BitVec.getLsbD_xor, h, hp, h0]; rfl
  · next h0 => rw [h, Bool.eq_false_iff.2 h0]

theorem crcStep_injective {a b : Word} (h : crcStep a = crcStep b) : a = b := by
  have h0 : a.getLsbD 0 = b.getLsbD 0 := by rw [← crcStep_top, ← crcStep_top, h]
  have hs : a >>> 1 = b >>> 1 := by
    simp only [crcStep, h0] at h
    split at h
    · simpa using congrArg (· ^^^ Config.crcReversedPoly) h
    · exact h
  apply BitVec.eq_of_getLsbD_eq
  intro i hi
  cases i with
  | zero => exact h0
  | succ i =>
    have := congrArg (fun r : Word => r.getLsbD i) hs
    simpa [Nat.add_comm] using this

theorem crcSteps_xor (n : Nat) (a b : Word) : crcSteps n (a ^^^ b) = crcSteps n a ^^^ crcSteps n b := by
  induction n generalizing a b with
  | zero => rfl
  | succ n ih => rw [crcSteps, crcSteps, crcSteps, crcStep_xor, ih]

theorem crcSteps_injective {n : Nat} {a b : Word} (h : crcSteps n a = crcSteps n b) : a = b := by
  induction n generalizing a b with
  | zero => exact h
  | succ n ih => exact crcStep_injective (ih h)

theorem crcSteps_of_low_zero (n : Nat) (a : Word) (h : ∀ i < n, a.getLsbD i = false) : crcSteps n a = a >>> n := by
  induction n generalizing a with
  | zero => simp [crcSteps]
  | succ n ih =>
    have h0 : crcStep a = a >>> 1 := by rw [crcStep, h 0 (by omega)]; rfl
    rw [crcSteps, h0, ih _ fun i hi => ?_]
    · rw [← BitVec.shiftRight_add, Nat.add_comm]
    · have := h (i + 1) (by omega)
      simpa [Nat.add_comm] using this

/-! ## One byte -/

/-- UPD is the eight steps on the accumulator with the byte added into its low end. -/
theorem upd_eq_crcSteps (acc : Word) (b : Byte) : upd acc b = crcSteps 8 (acc ^^^ b.setWidth 32) := by
  have hsplit : acc ^^^ b.setWidth 32 =
      ((acc ^^^ b.setWidth 32).extractLsb' 0 8).setWidth 32 ^^^ ((acc >>> 8) <<< 8) := by
    apply BitVec.eq_of_getLsbD_eq
    intro i hi
    by_cases h8 : i < 8
    · simp [h8, hi]
    · have e : 8 + (i - 8) = i := by omega
      have hb : b.getLsbD i = false := BitVec.getLsbD_of_ge _ _ (by omega)
      simp [h8, hi, hb, e]
  have hhi : crcSteps 8 ((acc >>> 8) <<< 8) = acc >>> 8 := by
    rw [crcSteps_of_low_zero 8 _ fun i hi => by simp [hi]]
    apply BitVec.eq_of_getLsbD_eq
    intro i hi
    by_cases h : 8 + i < 32
    · simp [h]
    · have : acc.getLsbD (8 + i) = false := BitVec.getLsbD_of_ge _ _ (by omega)
      simp [this]
  rw [hsplit, crcSteps_xor, hhi]
  rfl

theorem upd_injective_left {a c : Word} {b : Byte} (h : upd a b = upd c b) : a = c := by
  rw [upd_eq_crcSteps, upd_eq_crcSteps] at h
  simpa using congrArg (· ^^^ b.setWidth 32) (crcSteps_injective h)

theorem upd_injective_right {a : Word} {b c : Byte} (h : upd a b = upd a c) : b = c := by
  rw [upd_eq_crcSteps, upd_eq_crcSteps] at h
  have h2 : b.setWidth 32 = c.setWidth 32 := by
    have := congrArg (a ^^^ ·) (crcSteps_injective h)
    simpa [← BitVec.xor_assoc] using this
  have := congrArg (BitVec.setWidth 8) h2
  simpa using this

/-! ## Byte strings -/

@[simp] theorem updAll_nil (acc : Word) : updAll acc [] = acc := rfl

@[simp] theorem updAll_cons (acc : Word) (b : Byte) (bs : List Byte) :
    updAll acc (b :: bs) = updAll (upd acc b) bs := rfl

theorem updAll_append (acc : Word) (xs ys : List Byte) : updAll acc (xs ++ ys) = updAll (updAll acc xs) ys := by
  induction xs generalizing acc with
  | nil => rfl
  | cons b xs ih => exact ih _

theorem updAll_injective {a c : Word} {bs : List Byte} (h : updAll a bs = updAll c bs) : a = c := by
  induction bs generalizing a c with
  | nil => exact h
  | cons b bs ih => exact upd_injective_left (ih h)

theorem fin_injective {a c : Word} (h : fin a = fin c) : a = c := by
  simpa [fin] using h

end Sys2Proof.Machine
end

