-- ==== Sys2Proof/Laws/Decode.lean ====
section
/-! SUPPORT. Lemmas of the decoder's parts: what each operand format accepts, and that it accepts what the encoder
writes. -/

namespace Sys2Proof

open Sys2Proof.Machine

/-! ## Reading back what is written -/

theorem parseVector_vectorField (data : List Byte) (h : data.length ≤ 65535) :
    ∃ hi lo, vectorField data = hi :: lo :: data ∧ parseVector hi lo data = .ok data := by
  obtain ⟨hi, lo, e, hn⟩ := lengthField_bytes data.length h
  refine ⟨hi, lo, by rw [vectorField, e]; rfl, ?_⟩
  rw [parseVector, toNat_unbe16_pair, hn, if_pos rfl]

/-! ## What an accepted operand field was -/

theorem parseVector_ok {hi lo : Byte} {data d : List Byte} (h : parseVector hi lo data = .ok d) :
    d = data ∧ vectorField data = hi :: lo :: data ∧ data.length ≤ 65535 ∧ hi.toNat * 256 + lo.toNat = data.length := by
  rw [parseVector, toNat_unbe16_pair] at h
  split at h
  · next e =>
    have h1 := hi.isLt
    have h2 := lo.isLt
    have e' : unbe16 [hi, lo] = BitVec.ofNat 16 data.length := by
      apply BitVec.eq_of_toNat_eq
      rw [toNat_unbe16_pair, BitVec.toNat_ofNat, e, Nat.mod_eq_of_lt (by omega)]
    refine ⟨by simpa using h.symm, ?_, by omega, e⟩
    rw [vectorField, lengthField, ← e', be16_unbe16]
    rfl
  · simp at h

theorem parseN_ok {r : List Byte} {u : Unit} (h : parseN r = .ok u) : r = [] := by
  cases r <;> simp [parseN] at h ⊢

theorem parseB_ok {r : List Byte} {b : Byte} (h : parseB r = .ok b) : r = [b] := by
  match r, h with
  | [c], h => simpa [parseB] using h
  | [], h => simp [parseB] at h
  | _ :: _ :: _, h => simp [parseB] at h

theorem except_map_ok {α β : Type} {f : α → β} {e : Except Illegal α} {b : β} (h : e.map f = .ok b) :
    ∃ a, e = .ok a ∧ f a = b := by
  cases e <;> simp [Except.map] at h ⊢
  exact h

theorem parseV_ok {r d : List Byte} (h : parseV r = .ok d) : r = vectorField d ∧ d.length ≤ 65535 := by
  match r, h with
  | hi :: lo :: data, h =>
    obtain ⟨rfl, e, l, -⟩ := parseVector_ok h
    exact ⟨e.symm, l⟩
  | [], h => simp [parseV] at h
  | [_], h => simp [parseV] at h

theorem finalField_of_reserved_zero (b : Byte) (h : b.extractLsb' 1 7 = 0) : b = finalField (b.getLsbD 0) := by
  revert h b
  decide

theorem parseDV_ok {r : List Byte} {x : Bool × List Byte} (h : parseDV r = .ok x) :
    r = finalField x.1 :: vectorField x.2 ∧ x.2.length ≤ 65535 := by
  match r, h with
  | f :: hi :: lo :: data, h =>
    rw [parseDV] at h
    split at h
    · next hz =>
      obtain ⟨d, hd, rfl⟩ := except_map_ok h
      obtain ⟨rfl, e, l, -⟩ := parseVector_ok hd
      exact ⟨by rw [e]; simp only; rw [← finalField_of_reserved_zero f hz], l⟩
    · simp at h
  | [], h => simp [parseDV] at h
  | [_], h => simp [parseDV] at h
  | [_, _], h => simp [parseDV] at h

theorem parseTX_ok {r : List Byte} {x : Half × Byte × List Byte} (h : parseTX r = .ok x) :
    r = be16 x.1 ++ x.2.1 :: vectorField x.2.2 ∧ x.2.2.length ≤ 65535 := by
  match r, h with
  | a :: b :: c :: hi :: lo :: data, h =>
    rw [parseTX] at h
    obtain ⟨d, hd, rfl⟩ := except_map_ok h
    obtain ⟨rfl, e, l, -⟩ := parseVector_ok hd
    exact ⟨by rw [e, be16_unbe16]; rfl, l⟩
  | [], h => simp [parseTX] at h
  | [_], h => simp [parseTX] at h
  | [_, _], h => simp [parseTX] at h
  | [_, _, _], h => simp [parseTX] at h
  | [_, _, _, _], h => simp [parseTX] at h

/-! ## The opcode map -/

theorem opRow_some {code : Byte} {row : OpRow} (h : opRow code = some row) : row ∈ opTable ∧ row.code = code := by
  refine ⟨List.mem_of_find?_eq_some h, ?_⟩
  simpa using List.find?_some h

theorem opTable_codes_distinct : opTable.Pairwise (fun r q => r.code ≠ q.code) := by
  decide

end Sys2Proof
end

