-- ==== Sys2Proof/Laws/Memory.lean ====
section
/-! SUPPORT. The laws of the byte arrays (spec 00_scope.md rule R13): a read after a write, what a write leaves alone, and
that every operation keeps the canonical form and the range of indices. -/

namespace Sys2Proof.Machine

/-- A write leaves every other index as it was, in any list. -/
theorem Memory.read_write_other (m : Memory) {a k : Nat} (b : Byte) (h : k ≠ a) : (m.write a b).read k = m.read k := by
  induction m with
  | nil => simp only [Memory.write]; split <;> simp [Memory.read, h]
  | cons c rest ih =>
    obtain ⟨i, v⟩ := c
    simp only [Memory.write]
    split
    · split <;> simp [Memory.read, h]
    · split
      · next h2 => subst h2; split <;> simp [Memory.read, h]
      · simp only [Memory.read, ih]

/-- An index below every entry reads as an unlisted one. -/
theorem Memory.read_of_lt (m : Memory) (a : Nat) (h : ∀ c ∈ m, a < c.1) : m.read a = unlistedByte := by
  induction m with
  | nil => rfl
  | cons c rest ih =>
    obtain ⟨i, v⟩ := c
    have := h (i, v) (by simp)
    simp only [Memory.read]
    rw [if_neg (by simp at this; omega)]
    exact ih fun c hc => h c (by simp [hc])

/-- A read after a write to the same index gives the byte written. -/
theorem Memory.read_write_same (m : Memory) (a : Nat) (b : Byte) (hm : m.wf) : (m.write a b).read a = b := by
  induction m with
  | nil => simp only [Memory.write]; split <;> simp_all [Memory.read]
  | cons c rest ih =>
    obtain ⟨i, v⟩ := c
    obtain ⟨hp, hz⟩ := hm
    have hlt : ∀ c ∈ rest, i < c.1 := (List.pairwise_cons.1 hp).1
    have hrest : Memory.wf rest := ⟨(List.pairwise_cons.1 hp).2, fun c hc => hz c (by simp [hc])⟩
    simp only [Memory.write]
    split
    · next h1 =>
      split
      · next h2 =>
        rw [Memory.read_of_lt _ _ (by
          intro c hc
          rcases List.mem_cons.1 hc with rfl | hc
          · exact h1
          · exact Nat.lt_trans h1 (hlt c hc)), h2]
      · simp [Memory.read]
    · split
      · next h2 =>
        subst h2
        split
        · next h3 => rw [Memory.read_of_lt _ _ hlt, h3]
        · simp [Memory.read]
      · next h2 => simp only [Memory.read, if_neg h2, ih hrest]

/-- Every entry of a written array is the byte written or an entry that stood there. -/
theorem Memory.mem_write (m : Memory) (a : Nat) (b : Byte) {c : Host.Cell} (h : c ∈ m.write a b) : c = (a, b) ∨ c ∈ m := by
  induction m with
  | nil => simp only [Memory.write] at h; split at h <;> simp_all
  | cons d rest ih =>
    obtain ⟨i, v⟩ := d
    simp only [Memory.write] at h
    split at h
    · split at h <;> simp_all
    · split at h
      · split at h
        · exact .inr (List.mem_cons_of_mem _ h)
        · exact (List.mem_cons.1 h).imp_right (List.mem_cons_of_mem _)
      · rcases List.mem_cons.1 h with h | h
        · exact .inr (by simp [h])
        · exact (ih h).imp_right fun h => by simp [h]

/-- A write keeps the canonical form. -/
theorem Memory.wf_write (m : Memory) (a : Nat) (b : Byte) (hm : m.wf) : (m.write a b).wf := by
  induction m with
  | nil => simp only [Memory.write]; split <;> simp_all [Memory.wf]
  | cons c rest ih =>
    obtain ⟨i, v⟩ := c
    obtain ⟨hp, hz⟩ := hm
    obtain ⟨hlt, hp'⟩ := List.pairwise_cons.1 hp
    have hrest : Memory.wf rest := ⟨hp', fun c hc => hz c (by simp [hc])⟩
    simp only [Memory.write]
    split
    · next h1 =>
      split
      · exact ⟨hp, hz⟩
      · next h2 =>
        refine ⟨List.pairwise_cons.2 ⟨fun c hc => ?_, hp⟩, fun c hc => ?_⟩
        · rcases List.mem_cons.1 hc with rfl | hc
          · exact h1
          · exact Nat.lt_trans h1 (hlt c hc)
        · rcases List.mem_cons.1 hc with rfl | hc
          · exact h2
          · exact hz c hc
    · split
      · next h2 =>
        subst h2
        split
        · exact hrest
        · next h3 =>
          refine ⟨List.pairwise_cons.2 ⟨hlt, hp'⟩, fun c hc => ?_⟩
          rcases List.mem_cons.1 hc with rfl | hc
          · exact h3
          · exact hrest.2 c hc
      · next h1 h2 =>
        obtain ⟨ip, iz⟩ := ih hrest
        refine ⟨List.pairwise_cons.2 ⟨fun c hc => ?_, ip⟩, fun c hc => ?_⟩
        · rcases Memory.mem_write rest a b hc with rfl | hc
          · simp only; omega
          · exact hlt c hc
        · rcases List.mem_cons.1 hc with rfl | hc
          · exact hz _ (by simp)
          · exact iz c hc

/-- `memWrite` keeps the canonical form. -/
theorem wf_memWrite (m : Memory) (a : Nat) (bs : List Byte) (hm : m.wf) : (memWrite m a bs).wf := by
  induction bs generalizing m a with
  | nil => exact hm
  | cons b rest ih => exact ih _ _ (Memory.wf_write m a b hm)

/-- The empty array is in canonical form. -/
theorem Memory.wf_nil : Memory.wf [] := by
  simp [Memory.wf]

/-- `memWrite` leaves every index outside the stored bytes as it was. -/
theorem read_memWrite_other (m : Memory) (a : Nat) (bs : List Byte) {k : Nat} (h : k < a ∨ a + bs.length ≤ k) :
    (memWrite m a bs).read k = m.read k := by
  induction bs generalizing m a with
  | nil => rfl
  | cons b rest ih =>
    simp only [List.length_cons] at h
    rw [memWrite, ih _ _ (by omega), Memory.read_write_other _ _ (by omega)]

/-- `memRead` reads as many bytes as asked. -/
@[simp] theorem length_memRead (m : Memory) (a n : Nat) : (memRead m a n).length = n := by
  induction n generalizing a with
  | zero => rfl
  | succ n ih => simp [memRead, ih]

/-- The byte of `memRead` at a position. -/
theorem getElem?_memRead (m : Memory) (a n k : Nat) (h : k < n) : (memRead m a n)[k]? = some (m.read (a + k)) := by
  induction n generalizing a k with
  | zero => omega
  | succ n ih =>
    cases k with
    | zero => simp [memRead]
    | succ k => simp only [memRead, List.getElem?_cons_succ, ih (a + 1) k (by omega)]; congr 2; omega

/-- One byte more read is that byte appended. -/
theorem memRead_succ (m : Memory) (a n : Nat) : memRead m a (n + 1) = memRead m a n ++ [m.read (a + n)] := by
  induction n generalizing a with
  | zero => simp [memRead]
  | succ n ih =>
    rw [memRead, ih (a + 1), memRead]
    simp only [List.cons_append]
    congr 4
    omega

/-- Two arrays that agree on a range read the same there. -/
theorem memRead_congr {m m' : Memory} {a n : Nat} (h : ∀ k, a ≤ k → k < a + n → m.read k = m'.read k) :
    memRead m a n = memRead m' a n := by
  induction n generalizing a with
  | zero => rfl
  | succ n ih =>
    simp only [memRead]
    rw [h a (by omega) (by omega), ih fun k h1 h2 => h k (by omega) (by omega)]

/-- Reading back exactly the bytes written. -/
theorem memRead_memWrite (m : Memory) (a : Nat) (bs : List Byte) (hm : m.wf) : memRead (memWrite m a bs) a bs.length = bs := by
  induction bs generalizing m a with
  | nil => rfl
  | cons b rest ih =>
    have hw := Memory.wf_write m a b hm
    simp only [List.length_cons, memRead, memWrite, ih _ _ hw]
    rw [read_memWrite_other _ _ _ (by omega), Memory.read_write_same _ _ _ hm]

end Sys2Proof.Machine
end

