-- ==== Sys2Proof/Laws/FrameReader.lean ====
section
/-! SUPPORT. What the operations of the Frame Reader do, said once each (spec 42_frame_reader.md rules R151 to R155), and
that they keep the reader's invariants (10_state.md rule R34). -/

namespace Sys2Proof.Machine

/-! ## The flags -/

theorem haveMatch_eq_true (r : Reader) : haveMatch r = true ↔ r.m = 1 := by
  rw [haveMatch, decide_eq_true_iff]; rfl

theorem haveMatch_eq_false (r : Reader) : haveMatch r = false ↔ r.m ≠ 1 := by
  rw [haveMatch, decide_eq_false_iff_not]; rfl

theorem isFull_eq_true (n : Nat) (r : Reader) : isFull n r = true ↔ r.len = n := by
  simp [isFull]

theorem isFull_eq_false (n : Nat) (r : Reader) : isFull n r = false ↔ r.len ≠ n := by
  simp [isFull]

theorem frClosed_eq_true (n : Nat) (r : Reader) : frClosed n r = true ↔ r.len = n ∨ r.m = 1 := by
  rw [frClosed, Bool.or_eq_true, isFull_eq_true, haveMatch_eq_true]

theorem frClosed_eq_false (n : Nat) (r : Reader) : frClosed n r = false ↔ r.len ≠ n ∧ r.m ≠ 1 := by
  rw [frClosed, Bool.or_eq_false_iff, isFull_eq_false, haveMatch_eq_false]

/-! ## Appending a byte -/

@[simp] theorem frAppend_len (r : Reader) (b : Byte) : (frAppend r b).len = r.len + 1 := rfl

@[simp] theorem frAppend_m (r : Reader) (b : Byte) : (frAppend r b).m = if b = 0x00 then r.m + 1 else r.m := rfl

theorem frAppend_buf (r : Reader) (b : Byte) : (frAppend r b).buf = r.buf.write r.len b := rfl

/-- Only index `FR_LEN` is stored to. -/
theorem read_frAppend_other (r : Reader) (b : Byte) {k : Nat} (h : k ≠ r.len) :
    (frAppend r b).buf.read k = r.buf.read k := by
  rw [frAppend_buf, Memory.read_write_other _ _ h]

/-- Index `FR_LEN` holds the byte afterwards. -/
theorem read_frAppend_same (r : Reader) (b : Byte) (h : r.buf.wf) : (frAppend r b).buf.read r.len = b := by
  rw [frAppend_buf, Memory.read_write_same _ _ _ h]

/-- The bytes below `FR_LEN` are the old span. -/
theorem memRead_frAppend (r : Reader) (b : Byte) : memRead (frAppend r b).buf 0 r.len = spanWith r :=
  memRead_congr fun _ _ h => read_frAppend_other r b (by omega)

/-- The span grows by the byte. -/
theorem spanWith_frAppend (r : Reader) (b : Byte) (h : r.buf.wf) : spanWith (frAppend r b) = spanWith r ++ [b] := by
  rw [spanWith, frAppend_len, memRead_succ, memRead_frAppend, Nat.zero_add, read_frAppend_same r b h]

/-- The storage stays canonical and inside the array. -/
theorem storageInv_frAppend (c : Capacities) (r : Reader) (b : Byte) (h : StorageInv c r) (hl : r.len < c.rxcap) :
    StorageInv c (frAppend r b) := by
  refine ⟨Memory.wf_write _ _ _ h.1, fun cell hc => ?_⟩
  rcases Memory.mem_write _ _ _ hc with rfl | hc
  · exact hl
  · exact h.2 cell hc

/-- Items 1 to 3 of R34 survive an append to an open reader. -/
theorem readerInv_frAppend (c : Capacities) (r : Reader) (b : Byte) (hs : StorageInv c r) (h : ReaderInv c r)
    (hl : r.len < c.rxcap) (hm : r.m = 0) : ReaderInv c (frAppend r b) := by
  obtain ⟨-, -, -, h0⟩ := h
  have hz : ∀ x ∈ spanWith r, x ≠ 0x00 := h0 hm
  refine ⟨hl, ?_, fun h1 => ⟨?_, ?_, ?_⟩, fun h1 => ?_⟩
  · simp only [frAppend_m, hm]; split <;> omega
  · simp
  · simp only [frAppend_m, hm] at h1
    simp only [frAppend_len, Nat.add_sub_cancel]
    rw [read_frAppend_same r b hs.1]
    by_contra hb
    rw [if_neg hb] at h1
    omega
  · simp only [frAppend_len, Nat.add_sub_cancel, memRead_frAppend]
    exact hz
  · have hb : b ≠ 0x00 := by
      rintro rfl
      simp [hm] at h1
    have := spanWith_frAppend r b hs.1
    rw [spanWith] at this
    rw [this]
    intro x hx
    rcases List.mem_append.1 hx with hx | hx
    · exact hz x hx
    · rw [List.mem_singleton.1 hx]; exact hb

/-! ## Offering a byte -/

theorem frUpdate_of_closed (n : Nat) (r : Reader) (b : Byte) (h : frClosed n r = true) : frUpdate n r b = (r, false) := by
  simp [frUpdate, h]

theorem frUpdate_of_open (n : Nat) (r : Reader) (b : Byte) (h : frClosed n r = false) :
    frUpdate n r b = (frAppend r b, true) := by
  simp [frUpdate, h]

/-- Everything an offer can do: nothing, or an append to an open reader. -/
theorem frUpdate_cases (n : Nat) (r : Reader) (b : Byte) :
    ((r.len = n ∨ r.m = 1) ∧ frUpdate n r b = (r, false)) ∨
    ((r.len ≠ n ∧ r.m ≠ 1) ∧ frUpdate n r b = (frAppend r b, true)) := by
  cases h : frClosed n r
  · exact .inr ⟨(frClosed_eq_false n r).1 h, frUpdate_of_open n r b h⟩
  · exact .inl ⟨(frClosed_eq_true n r).1 h, frUpdate_of_closed n r b h⟩

/-- A byte that an open reader takes is stored at index `FR_LEN`. -/
theorem read_frUpdate_taken (n : Nat) (r : Reader) (b : Byte) (h : frClosed n r = false) (hw : r.buf.wf) :
    (frUpdate n r b).1.buf.read r.len = b := by
  rw [frUpdate_of_open n r b h]
  exact read_frAppend_same r b hw

/-- No other index is stored to, whether the byte is taken or not. -/
theorem read_frUpdate_other (n : Nat) (r : Reader) (b : Byte) {a : Nat} (h : ¬ (frClosed n r = false ∧ a = r.len)) :
    (frUpdate n r b).1.buf.read a = r.buf.read a := by
  cases hc : frClosed n r
  · rw [frUpdate_of_open n r b hc]
    exact read_frAppend_other r b fun e => h ⟨hc, e⟩
  · rw [frUpdate_of_closed n r b hc]

/-- An offer keeps the reader's invariants. -/
theorem readerInv_frUpdate (c : Capacities) (r : Reader) (b : Byte) (hs : StorageInv c r) (h : ReaderInv c r) :
    StorageInv c (frUpdate c.rxcap r b).1 ∧ ReaderInv c (frUpdate c.rxcap r b).1 := by
  rcases frUpdate_cases c.rxcap r b with ⟨-, e⟩ | ⟨⟨h1, h2⟩, e⟩
  · rw [e]; exact ⟨hs, h⟩
  · rw [e]
    have hl : r.len < c.rxcap := Nat.lt_of_le_of_ne h.1 h1
    have hm : r.m = 0 := by have := h.2.1; omega
    exact ⟨storageInv_frAppend c r b hs hl, readerInv_frAppend c r b hs h hl hm⟩

/-! ## Reset -/

@[simp] theorem frReset_buf (r : Reader) : (frReset r).buf = r.buf := rfl

@[simp] theorem frReset_len (r : Reader) : (frReset r).len = 0 := rfl

@[simp] theorem frReset_m (r : Reader) : (frReset r).m = 0 := rfl

/-- An empty reader meets items 1 to 3 of R34. -/
theorem readerInv_frReset (c : Capacities) (r : Reader) (hs : StorageInv c r) :
    StorageInv c (frReset r) ∧ ReaderInv c (frReset r) := by
  refine ⟨hs, ?_⟩
  simp [ReaderInv, memRead]

/-- Reset and re-feed, as in the epilogue: the reader holds the byte alone (R183). -/
theorem holdsOnly_refeed (n : Nat) (r : Reader) (b : Byte) (hn : 1 ≤ n) (hw : r.buf.wf) :
    HoldsOnly (frUpdate n (frReset r) b).1 b := by
  have ho : frClosed n (frReset r) = false := by
    rw [frClosed_eq_false]
    simp
    omega
  rw [frUpdate_of_open _ _ _ ho]
  refine ⟨rfl, spanWith_frAppend (frReset r) b hw, by simp⟩

end Sys2Proof.Machine
end

