-- ==== Sys2Proof/Laws/State.lean ====
section
/-! SUPPORT. What each update of the state does to each field, one lemma each, true by unfolding; so no later proof unfolds
a record update. -/

namespace Sys2Proof.Machine

@[simp] theorem State.setCrcAcc_caps (s : State) (v : Word) : (s.setCrcAcc v).caps = s.caps := rfl
@[simp] theorem State.setCrcAcc_crcAcc (s : State) (v : Word) : (s.setCrcAcc v).crcAcc = v := rfl
@[simp] theorem State.setCrcAcc_reader (s : State) (v : Word) : (s.setCrcAcc v).reader = s.reader := rfl
@[simp] theorem State.setCrcAcc_pm (s : State) (v : Word) : (s.setCrcAcc v).pm = s.pm := rfl
@[simp] theorem State.setCrcAcc_pending (s : State) (v : Word) : (s.setCrcAcc v).pending = s.pending := rfl
@[simp] theorem State.setCrcAcc_trace (s : State) (v : Word) : (s.setCrcAcc v).trace = s.trace := rfl

@[simp] theorem State.setReader_caps (s : State) (r : Reader) : (s.setReader r).caps = s.caps := rfl
@[simp] theorem State.setReader_crcAcc (s : State) (r : Reader) : (s.setReader r).crcAcc = s.crcAcc := rfl
@[simp] theorem State.setReader_reader (s : State) (r : Reader) : (s.setReader r).reader = r := rfl
@[simp] theorem State.setReader_pm (s : State) (r : Reader) : (s.setReader r).pm = s.pm := rfl
@[simp] theorem State.setReader_pending (s : State) (r : Reader) : (s.setReader r).pending = s.pending := rfl
@[simp] theorem State.setReader_trace (s : State) (r : Reader) : (s.setReader r).trace = s.trace := rfl

@[simp] theorem State.setPm_caps (s : State) (p : PacketManager) : (s.setPm p).caps = s.caps := rfl
@[simp] theorem State.setPm_crcAcc (s : State) (p : PacketManager) : (s.setPm p).crcAcc = s.crcAcc := rfl
@[simp] theorem State.setPm_reader (s : State) (p : PacketManager) : (s.setPm p).reader = s.reader := rfl
@[simp] theorem State.setPm_pm (s : State) (p : PacketManager) : (s.setPm p).pm = p := rfl
@[simp] theorem State.setPm_pending (s : State) (p : PacketManager) : (s.setPm p).pending = s.pending := rfl
@[simp] theorem State.setPm_trace (s : State) (p : PacketManager) : (s.setPm p).trace = s.trace := rfl

@[simp] theorem State.setStats_caps (s : State) (c : Stats) : (s.setStats c).caps = s.caps := rfl
@[simp] theorem State.setStats_crcAcc (s : State) (c : Stats) : (s.setStats c).crcAcc = s.crcAcc := rfl
@[simp] theorem State.setStats_reader (s : State) (c : Stats) : (s.setStats c).reader = s.reader := rfl
@[simp] theorem State.setStats_pm (s : State) (c : Stats) : (s.setStats c).pm = { s.pm with stats := c } := rfl
@[simp] theorem State.setStats_pending (s : State) (c : Stats) : (s.setStats c).pending = s.pending := rfl
@[simp] theorem State.setStats_trace (s : State) (c : Stats) : (s.setStats c).trace = s.trace := rfl

@[simp] theorem State.setLastSentOrder_caps (s : State) (v : Word) : (s.setLastSentOrder v).caps = s.caps := rfl
@[simp] theorem State.setLastSentOrder_crcAcc (s : State) (v : Word) : (s.setLastSentOrder v).crcAcc = s.crcAcc := rfl
@[simp] theorem State.setLastSentOrder_reader (s : State) (v : Word) : (s.setLastSentOrder v).reader = s.reader := rfl
@[simp] theorem State.setLastSentOrder_pm (s : State) (v : Word) : (s.setLastSentOrder v).pm = { s.pm with lastSentOrder := v } := rfl
@[simp] theorem State.setLastSentOrder_pending (s : State) (v : Word) : (s.setLastSentOrder v).pending = s.pending := rfl
@[simp] theorem State.setLastSentOrder_trace (s : State) (v : Word) : (s.setLastSentOrder v).trace = s.trace := rfl

@[simp] theorem State.setLastReceivedOrder_caps (s : State) (v : Word) : (s.setLastReceivedOrder v).caps = s.caps := rfl
@[simp] theorem State.setLastReceivedOrder_crcAcc (s : State) (v : Word) : (s.setLastReceivedOrder v).crcAcc = s.crcAcc := rfl
@[simp] theorem State.setLastReceivedOrder_reader (s : State) (v : Word) : (s.setLastReceivedOrder v).reader = s.reader := rfl
@[simp] theorem State.setLastReceivedOrder_pm (s : State) (v : Word) : (s.setLastReceivedOrder v).pm = { s.pm with lastReceivedOrder := v } := rfl
@[simp] theorem State.setLastReceivedOrder_pending (s : State) (v : Word) : (s.setLastReceivedOrder v).pending = s.pending := rfl
@[simp] theorem State.setLastReceivedOrder_trace (s : State) (v : Word) : (s.setLastReceivedOrder v).trace = s.trace := rfl

@[simp] theorem State.setPending_caps (s : State) (ps : List Presentation) : (s.setPending ps).caps = s.caps := rfl
@[simp] theorem State.setPending_crcAcc (s : State) (ps : List Presentation) : (s.setPending ps).crcAcc = s.crcAcc := rfl
@[simp] theorem State.setPending_reader (s : State) (ps : List Presentation) : (s.setPending ps).reader = s.reader := rfl
@[simp] theorem State.setPending_pm (s : State) (ps : List Presentation) : (s.setPending ps).pm = s.pm := rfl
@[simp] theorem State.setPending_pending (s : State) (ps : List Presentation) : (s.setPending ps).pending = ps := rfl
@[simp] theorem State.setPending_trace (s : State) (ps : List Presentation) : (s.setPending ps).trace = s.trace := rfl

@[simp] theorem State.deliver_caps (s : State) (os : List Output) : (s.deliver os).caps = s.caps := rfl
@[simp] theorem State.deliver_crcAcc (s : State) (os : List Output) : (s.deliver os).crcAcc = s.crcAcc := rfl
@[simp] theorem State.deliver_reader (s : State) (os : List Output) : (s.deliver os).reader = s.reader := rfl
@[simp] theorem State.deliver_pm (s : State) (os : List Output) : (s.deliver os).pm = s.pm := rfl
@[simp] theorem State.deliver_pending (s : State) (os : List Output) : (s.deliver os).pending = s.pending := rfl
@[simp] theorem State.deliver_trace (s : State) (os : List Output) : (s.deliver os).trace = s.trace ++ os := rfl

@[simp] theorem emit_caps (s : State) (e : Event) : (emit s e).caps = s.caps := rfl
@[simp] theorem emit_crcAcc (s : State) (e : Event) : (emit s e).crcAcc = s.crcAcc := rfl
@[simp] theorem emit_reader (s : State) (e : Event) : (emit s e).reader = s.reader := rfl
@[simp] theorem emit_pm (s : State) (e : Event) : (emit s e).pm = s.pm := rfl
@[simp] theorem emit_pending (s : State) (e : Event) : (emit s e).pending = s.pending := rfl
@[simp] theorem emit_trace (s : State) (e : Event) : (emit s e).trace = s.trace ++ [.event e] := rfl

@[simp] theorem respond_caps (s : State) (st : Status) (body : List Byte) : (respond s st body).caps = s.caps := rfl
@[simp] theorem respond_crcAcc (s : State) (st : Status) (body : List Byte) : (respond s st body).crcAcc = s.crcAcc := rfl
@[simp] theorem respond_reader (s : State) (st : Status) (body : List Byte) : (respond s st body).reader = s.reader := rfl
@[simp] theorem respond_pm (s : State) (st : Status) (body : List Byte) : (respond s st body).pm = s.pm := rfl
@[simp] theorem respond_pending (s : State) (st : Status) (body : List Byte) : (respond s st body).pending = s.pending := rfl
@[simp] theorem respond_trace (s : State) (st : Status) (body : List Byte) : (respond s st body).trace = s.trace ++ [.response (statusCode st :: body)] := rfl

@[simp] theorem pmReset_caps (s : State) : (pmReset s).caps = s.caps := rfl
@[simp] theorem pmReset_crcAcc (s : State) : (pmReset s).crcAcc = s.crcAcc := rfl
@[simp] theorem pmReset_reader (s : State) : (pmReset s).reader = s.reader := rfl
@[simp] theorem pmReset_pending (s : State) : (pmReset s).pending = s.pending := rfl
@[simp] theorem pmReset_trace (s : State) : (pmReset s).trace = s.trace := rfl
@[simp] theorem pmReset_pm (s : State) :
    (pmReset s).pm = { lastSentOrder := 0, lastReceivedOrder := 0,
                       stats := { Stats.reset with stateResets := s.pm.stats.stateResets + 1 } } := rfl

/-- Handing over one thing after another is handing over both. -/
@[simp] theorem State.deliver_deliver (s : State) (os ps : List Output) :
    (s.deliver os).deliver ps = s.deliver (os ++ ps) := by
  simp [State.deliver]

/-- Handing over nothing. -/
@[simp] theorem State.deliver_nil (s : State) : s.deliver [] = s := by
  simp [State.deliver]

end Sys2Proof.Machine
end

