-- ==== Sys2Proof/Laws/PacketManager.lean ====
section
/-! SUPPORT. What the operations of the Packet Manager do, said once each (spec 43_packet_manager.md rules R175, R181 to
R186): which fields an attempt touches, what the epilogue leaves, and the three things a PM.TX or a PM.RX can do. -/

namespace Sys2Proof.Machine

/-! ## Receiving: one attempt -/

/-- `f` at `s` writes the Packet Manager's registers and hands over at most one RxPacket; what it does is decided by the other
fields alone, not by the trace or the port. -/
def TouchesPmOnly (f : State → State) (s : State) : Prop :=
  ∃ (p : PacketManager) (outs : List Output),
    (outs = [] ∨ ∃ payload h, outs = [.event (.rxPacket payload h)]) ∧
    ∀ (tr : List Output) (ps : List Presentation),
      f { s with trace := tr, pending := ps } = { s with pm := p, trace := tr ++ outs, pending := ps }

/-- Writing the Packet Manager's registers and handing over nothing. -/
theorem touchesPmOnly_of_quiet {f : State → State} {s : State} (p : PacketManager)
    (h : ∀ (tr : List Output) (ps : List Presentation),
      f { s with trace := tr, pending := ps } = { s with pm := p, trace := tr, pending := ps }) : TouchesPmOnly f s :=
  ⟨p, [], .inl rfl, fun tr ps => by rw [h, List.append_nil]⟩

theorem classify_effect (h : Header) (payload : List Byte) (s : State) :
    TouchesPmOnly (fun x => classify x h payload) s := by
  by_cases h1 : h.order = s.pm.lastReceivedOrder
  · exact touchesPmOnly_of_quiet (countRedundant s).pm fun _ _ => (if_pos h1).trans rfl
  · by_cases h2 : h.order.toNat < s.pm.lastReceivedOrder.toNat
    · exact touchesPmOnly_of_quiet (pmReset s).pm fun _ _ => (if_neg h1).trans ((if_pos h2).trans rfl)
    · exact ⟨(acceptPacket s h payload).pm, _, .inr ⟨payload, h, rfl⟩, fun _ _ => (if_neg h1).trans ((if_neg h2).trans rfl)⟩

theorem checkRegion_effect (region : List Byte) (s : State) : TouchesPmOnly (fun x => checkRegion x region) s := by
  by_cases h1 : region.length < Config.hdrSize
  · exact touchesPmOnly_of_quiet (countLengthError s).pm fun _ _ => (if_pos h1).trans rfl
  · by_cases h2 : frameCrc region ≠ (parseHeader region).crc
    · exact touchesPmOnly_of_quiet (countCrcError s).pm fun _ _ => (if_neg h1).trans ((if_pos h2).trans rfl)
    · by_cases h3 : (regionPayload region).length ≠ (parseHeader region).len.toNat
      · exact touchesPmOnly_of_quiet (countLengthError s).pm fun _ _ =>
          (if_neg h1).trans ((if_neg h2).trans ((if_pos h3).trans rfl))
      · obtain ⟨p, outs, ho, he⟩ := classify_effect (parseHeader region) (regionPayload region) s
        exact ⟨p, outs, ho, fun tr ps => (if_neg h1).trans ((if_neg h2).trans ((if_neg h3).trans (he tr ps)))⟩

/-- An attempt (sub-steps a to g of R182). -/
theorem finishRx_effect (s : State) : TouchesPmOnly finishRx s := by
  by_cases h1 : haveMatch s.reader = true
  · by_cases h2 : (dec (spanWith s.reader) true).1 = .ok
    · obtain ⟨p, outs, ho, he⟩ := checkRegion_effect (dec (spanWith s.reader) true).2 s
      exact ⟨p, outs, ho, fun tr ps => (if_pos h1).trans ((if_pos h2).trans (he tr ps))⟩
    · exact touchesPmOnly_of_quiet (countDecodeError s).pm fun _ _ => (if_pos h1).trans ((if_neg h2).trans rfl)
  · exact touchesPmOnly_of_quiet (countOverrun s).pm fun _ _ => (if_neg h1).trans rfl

/-- The fields an attempt leaves alone. -/
theorem finishRx_frame (s : State) :
    (finishRx s).caps = s.caps ∧ (finishRx s).crcAcc = s.crcAcc ∧ (finishRx s).reader = s.reader ∧
      (finishRx s).pending = s.pending := by
  obtain ⟨p, outs, -, h⟩ := finishRx_effect s
  have := h s.trace s.pending
  rw [this]
  exact ⟨rfl, rfl, rfl, rfl⟩

/-- The epilogue folds the overruns and restarts the reader with the byte (R183). -/
theorem epilogue_eq (s : State) (b : Byte) :
    epilogue s b =
      { s with
        reader := (frUpdate s.caps.rxcap (frReset s.reader) b).1
        pm := { s.pm with
          stats := { s.pm.stats with
            currentOverruns := 0
            totalOverruns := s.pm.stats.totalOverruns + s.pm.stats.currentOverruns } } } := rfl

/-- The epilogue as two updates. -/
theorem epilogue_eq_setReader (s : State) (b : Byte) :
    epilogue s b = (foldOverruns s).setReader (frUpdate s.caps.rxcap (frReset s.reader) b).1 := rfl

/-- A PM.RX that leaves the reader open only feeds the byte (R181). -/
theorem rxByte_of_open (s : State) (b : Byte)
    (h : frClosed s.caps.rxcap (frUpdate s.caps.rxcap s.reader b).1 = false) :
    rxByte s b = s.setReader (frUpdate s.caps.rxcap s.reader b).1 := by
  simp [rxByte, h]

/-- A PM.RX that finds or leaves the reader matched or full runs an attempt and the epilogue (R181). -/
theorem rxByte_of_closed (s : State) (b : Byte)
    (h : frClosed s.caps.rxcap (frUpdate s.caps.rxcap s.reader b).1 = true) :
    rxByte s b = epilogue (finishRx (s.setReader (frUpdate s.caps.rxcap s.reader b).1)) b := by
  simp [rxByte, h]

/-! ## Receiving: the situations -/

/-- The classification does not look at the reader. -/
theorem classify_setReader (s : State) (q : Reader) (h : Header) (payload : List Byte) :
    classify (s.setReader q) h payload = (classify s h payload).setReader q := by
  by_cases h1 : h.order = s.pm.lastReceivedOrder
  · rw [show classify s h payload = countRedundant s from if_pos h1]
    exact if_pos h1
  · by_cases h2 : h.order.toNat < s.pm.lastReceivedOrder.toNat
    · rw [show classify s h payload = pmReset s from (if_neg h1).trans (if_pos h2)]
      exact (if_neg h1).trans (if_pos h2)
    · rw [show classify s h payload = acceptPacket s h payload from (if_neg h1).trans (if_neg h2)]
      exact (if_neg h1).trans (if_neg h2)

/-- The checks of a region do not look at the reader. -/
theorem checkRegion_setReader (s : State) (q : Reader) (region : List Byte) :
    checkRegion (s.setReader q) region = (checkRegion s region).setReader q := by
  simp only [checkRegion, classify_setReader]
  split
  · rfl
  · split
    · rfl
    · split <;> rfl

/-- An attempt on a matched reader (sub-steps b to g of R182). -/
theorem finishRx_of_match (s : State) (q : Reader) (h : haveMatch q = true) :
    finishRx (s.setReader q) =
      (if (dec (spanWith q) true).1 = .ok then checkRegion s (dec (spanWith q) true).2 else countDecodeError s).setReader q := by
  have e : finishRx (s.setReader q) =
      if (dec (spanWith q) true).1 = .ok then checkRegion (s.setReader q) (dec (spanWith q) true).2
      else countDecodeError (s.setReader q) := if_pos h
  rw [e, checkRegion_setReader]
  split <;> rfl

/-- An attempt on a full reader without a match (sub-step a of R182). -/
theorem finishRx_of_no_match (s : State) (q : Reader) (h : haveMatch q = false) :
    finishRx (s.setReader q) = (countOverrun s).setReader q := by
  have e : finishRx (s.setReader q) = countOverrun (s.setReader q) := if_neg (by simp [h])
  rw [e]
  rfl

/-- Still accumulating: the byte is appended and no attempt runs. -/
theorem rxByte_of_accumulates (s : State) (b : Byte) (h : Accumulates s b) :
    rxByte s b = s.setReader (frAppend s.reader b) := by
  obtain ⟨hm, hl, hb⟩ := h
  have ho : frClosed s.caps.rxcap s.reader = false := (frClosed_eq_false _ _).2 (by omega)
  have e : (frUpdate s.caps.rxcap s.reader b).1 = frAppend s.reader b := by rw [frUpdate_of_open _ _ _ ho]
  rw [rxByte_of_open, e]
  rw [e, frClosed_eq_false, frAppend_len, frAppend_m, if_neg hb]
  omega

/-- Where the fed reader is closed, an attempt runs on it and the reader restarts with the byte. -/
theorem rxByte_of_closed_eq (s : State) (b : Byte) (h : CoreInv s)
    (hc : frClosed s.caps.rxcap (frUpdate s.caps.rxcap s.reader b).1 = true) :
    ∃ r, HoldsOnly r b ∧
      rxByte s b = (foldOverruns (finishRx (s.setReader (frUpdate s.caps.rxcap s.reader b).1))).setReader r := by
  obtain ⟨hcaps, hs, hr, -⟩ := h
  have hw := (readerInv_frUpdate s.caps s.reader b hs hr).1.1
  refine ⟨_, holdsOnly_refeed s.caps.rxcap (frUpdate s.caps.rxcap s.reader b).1 b hcaps.1.1 hw, ?_⟩
  obtain ⟨f1, -, f3, -⟩ := finishRx_frame (s.setReader (frUpdate s.caps.rxcap s.reader b).1)
  rw [rxByte_of_closed s b hc, epilogue_eq_setReader, f1, f3]
  rfl

/-- An overrun attempt: the reader is full without a match. -/
theorem rxByte_of_overruns (s : State) (b : Byte) (h : CoreInv s) (ho : Overruns s b) :
    ∃ r, HoldsOnly r b ∧ rxByte s b = (foldOverruns (countOverrun s)).setReader r := by
  obtain ⟨hm, hl⟩ := ho
  have hfed : frClosed s.caps.rxcap (frUpdate s.caps.rxcap s.reader b).1 = true ∧
      haveMatch (frUpdate s.caps.rxcap s.reader b).1 = false := by
    rcases frUpdate_cases s.caps.rxcap s.reader b with ⟨h1, e⟩ | ⟨⟨h1, h2⟩, e⟩
    · rw [e]
      exact ⟨(frClosed_eq_true _ _).2 h1, (haveMatch_eq_false _).2 (by rw [hm]; decide)⟩
    · rw [e]
      have hb : s.reader.len + 1 = s.caps.rxcap ∧ b ≠ 0x00 := by
        rcases hl with hl | hl
        · exact absurd hl h1
        · exact hl
      refine ⟨(frClosed_eq_true _ _).2 (.inl hb.1), (haveMatch_eq_false _).2 ?_⟩
      rw [frAppend_m, if_neg hb.2]
      omega
  obtain ⟨r, hr, e⟩ := rxByte_of_closed_eq s b h hfed.1
  refine ⟨r, hr, e.trans ?_⟩
  rw [finishRx_of_no_match _ _ hfed.2]
  rfl

/-- An attempt on a matched span: it is decoded and its checks run. -/
theorem rxByte_of_attempt (s : State) (b : Byte) (x : List Byte) (h : CoreInv s) (ha : AttemptOn s b x) :
    ∃ r, HoldsOnly r b ∧
      rxByte s b =
        (foldOverruns (if (dec x true).1 = .ok then checkRegion s (dec x true).2 else countDecodeError s)).setReader r := by
  have hfed : haveMatch (frUpdate s.caps.rxcap s.reader b).1 = true ∧
      spanWith (frUpdate s.caps.rxcap s.reader b).1 = x := by
    obtain ⟨-, hs, -, -⟩ := h
    rcases ha with ⟨hm, rfl⟩ | ⟨hm, hl, rfl, rfl⟩
    · rw [frUpdate_of_closed _ _ _ ((frClosed_eq_true _ _).2 (.inr hm))]
      exact ⟨(haveMatch_eq_true _).2 hm, rfl⟩
    · rw [frUpdate_of_open _ _ _ ((frClosed_eq_false _ _).2 (by omega))]
      refine ⟨(haveMatch_eq_true _).2 ?_, spanWith_frAppend _ _ hs.1⟩
      rw [frAppend_m, if_pos rfl, hm]
  have hc : frClosed s.caps.rxcap (frUpdate s.caps.rxcap s.reader b).1 = true := by
    rw [frClosed, hfed.1, Bool.or_true]
  obtain ⟨r, hr, e⟩ := rxByte_of_closed_eq s b h hc
  refine ⟨r, hr, e.trans ?_⟩
  rw [finishRx_of_match _ _ hfed.1, hfed.2]
  rfl

/-- Everything a PM.RX does: it writes the reader and the Packet Manager's registers and hands over at most one RxPacket, and
neither the trace nor the port decides what. -/
theorem rxByte_effect (b : Byte) (s : State) :
    ∃ (r : Reader) (p : PacketManager) (outs : List Output),
      (outs = [] ∨ ∃ payload h, outs = [.event (.rxPacket payload h)]) ∧
      ∀ (tr : List Output) (ps : List Presentation),
        rxByte { s with trace := tr, pending := ps } b =
          { s with reader := r, pm := p, trace := tr ++ outs, pending := ps } := by
  cases h : frClosed s.caps.rxcap (frUpdate s.caps.rxcap s.reader b).1
  · refine ⟨(frUpdate s.caps.rxcap s.reader b).1, s.pm, [], .inl rfl, fun tr ps => ?_⟩
    rw [rxByte_of_open { s with trace := tr, pending := ps } b h, List.append_nil]
    rfl
  · obtain ⟨p, outs, ho, he⟩ := finishRx_effect (s.setReader (frUpdate s.caps.rxcap s.reader b).1)
    refine ⟨(frUpdate s.caps.rxcap (frReset (frUpdate s.caps.rxcap s.reader b).1) b).1,
      { p with
        stats := { p.stats with
          currentOverruns := 0, totalOverruns := p.stats.totalOverruns + p.stats.currentOverruns } },
      outs, ho, fun tr ps => ?_⟩
    rw [rxByte_of_closed { s with trace := tr, pending := ps } b h, epilogue_eq]
    have := he tr ps
    simp only [State.setReader] at this ⊢
    rw [this]

/-! ## Sending -/

/-- Everything a PM.TX can do: answer 0 and change nothing, or store the order, emit the pairs and answer the order (R175). -/
theorem txPacket_cases (s : State) (id : Half) (rep : Byte) (data : List Byte) :
    txPacket s id rep data = respond s .ok (be32 0) ∨
    (Config.hdrSize + data.length ≤ s.caps.txcap ∧
      (frameOf (buildRegion id data (s.pm.lastSentOrder + 1))).length ≤ s.caps.txcap ∧
      txPacket s id rep data =
        respond ((s.setLastSentOrder (s.pm.lastSentOrder + 1)).deliver
          (txEvents rep.toNat (frameOf (buildRegion id data (s.pm.lastSentOrder + 1)))))
          .ok (be32 (s.pm.lastSentOrder + 1))) := by
  unfold txPacket sendFrame
  split
  · exact .inl rfl
  · simp only
    split
    · exact .inl rfl
    · exact .inr ⟨by omega, by omega, rfl⟩

/-- The events of a send as a list of repeated pairs (R177). -/
theorem txEvents_eq (n : Nat) (frame : List Byte) :
    txEvents n frame = (List.replicate n [.event .prepareTx, .event (.txBuffer frame)]).flatten := by
  induction n with
  | zero => rfl
  | succ n ih => simp [txEvents, ih, List.replicate_succ]

end Sys2Proof.Machine
end

