-- ==== Sys2Proof/Laws/PerInstr.lean ====
section
/-! SUPPORT. A statement about every command as syntax: the length of its packet is the one its leading bytes announce
(spec 30_encoding.md rule R79). -/

namespace Sys2Proof.Laws.Length

open Sys2Proof.Machine

/-- The packet of a command that a packet can carry has the length R79 computes from its leading bytes. -/
def Statement (i : Instr) : Prop :=
  i.WellFormed → packetLength (encode i) = some (encode i).length

theorem vector_length (data : List Byte) (h : data.length ≤ 65535) :
    ∃ hi lo, vectorField data = hi :: lo :: data ∧ (unbe16 [hi, lo]).toNat = data.length := by
  obtain ⟨hi, lo, e, hn⟩ := lengthField_bytes data.length h
  exact ⟨hi, lo, by rw [vectorField, e]; rfl, by rw [toNat_unbe16_pair, hn]⟩

theorem cobsEnc (data : List Byte) : Statement (.cobsEnc data) := by
  intro hw
  have h : data.length ≤ Config.nmax := of_decide_eq_true hw
  obtain ⟨hi, lo, e, hn⟩ := vector_length data (Nat.le_trans h (by decide))
  rw [encode, e]
  show some (3 + (unbe16 [hi, lo]).toNat) = _
  rw [hn]
  simp only [List.length_cons]
  congr 1
  omega

theorem cobsDec (final : Bool) (data : List Byte) : Statement (.cobsDec final data) := by
  intro hw
  have h : data.length ≤ Config.capMax := of_decide_eq_true hw
  obtain ⟨hi, lo, e, hn⟩ := vector_length data h
  rw [encode, e]
  show some (4 + (unbe16 [hi, lo]).toNat) = _
  rw [hn]
  simp only [List.length_cons]
  congr 1
  omega

theorem crcInit : Statement .crcInit := fun _ => rfl

theorem crcUpd (b : Byte) : Statement (.crcUpd b) := fun _ => rfl

theorem crcFin : Statement .crcFin := fun _ => rfl

theorem crcTbl (b : Byte) : Statement (.crcTbl b) := fun _ => rfl

theorem frRst : Statement .frRst := fun _ => rfl

theorem frUpd (b : Byte) : Statement (.frUpd b) := fun _ => rfl

theorem frStat : Statement .frStat := fun _ => rfl

theorem frGetd : Statement .frGetd := fun _ => rfl

theorem frGet : Statement .frGet := fun _ => rfl

theorem pmRst : Statement .pmRst := fun _ => rfl

theorem pmRx (b : Byte) : Statement (.pmRx b) := fun _ => rfl

theorem pmTx (id : Half) (rep : Byte) (data : List Byte) : Statement (.pmTx id rep data) := by
  intro hw
  have h : data.length ≤ Config.capMax := of_decide_eq_true hw
  obtain ⟨hi, lo, e, hn⟩ := vector_length data h
  rw [encode, e]
  show some (6 + (unbe16 [hi, lo]).toNat) = some (data.length + 6)
  rw [hn, Nat.add_comm]

theorem pmStat (b : Byte) : Statement (.pmStat b) := fun _ => rfl

end Sys2Proof.Laws.Length
end

