-- ==== Sys2Proof/Laws/Step.lean ====
section
/-! SUPPORT. What the command port finds, said once for each case, and how runs are taken apart: one step off a run of the
machine, and a list of commands in two parts. -/

namespace Sys2Proof.Machine

/-! ## The command port -/

theorem fetch_of_idle (s : State) (h : s.pending = []) : fetch s = .idle := by
  simp [fetch, h]

theorem fetch_of_overlap (s : State) (ps : List (List Byte)) (rest : List Presentation)
    (h : s.pending = .overlapping ps :: rest) : fetch s = .overlap := by
  simp [fetch, h]

theorem fetch_of_command (s : State) (p : List Byte) (rest : List Presentation) (i : Instr)
    (h : s.pending = .packet p :: rest) (hd : decode p = .ok i) : fetch s = .command i (s.setPending rest) := by
  simp [fetch, h, hd]

theorem fetch_of_illegal (s : State) (p : List Byte) (rest : List Presentation) (e : Illegal)
    (h : s.pending = .packet p :: rest) (hd : decode p = .error e) : fetch s = .illegal (s.setPending rest) := by
  simp [fetch, h, hd]

/-- What is taken from the port differs from the state before in `pending` alone. -/
theorem fetch_taken (s t : State) (h : fetch s = .illegal t ∨ ∃ i, fetch s = .command i t) :
    ∃ ps, t = s.setPending ps := by
  unfold fetch at h
  split at h
  · simp at h
  · simp at h
  · split at h
    · obtain h | ⟨i, h⟩ := h <;> cases h
      exact ⟨_, rfl⟩
    · obtain h | ⟨i, h⟩ := h <;> cases h
      exact ⟨_, rfl⟩

/-! ## Runs -/

/-- One step off a run. -/
theorem run_succ (n : Nat) (s t : Sys2Proof.core.State) (h : Sys2Proof.core.step s = .next t) :
    Sys2Proof.core.run (n + 1) s = Sys2Proof.core.run n t := by
  rw [Host.Core.run.eq_def]
  simp only [h]

theorem execAll_cons_of_next {i : Instr} {is : List Instr} {s t : State} (h : exec i s = .next t) :
    execAll (i :: is) s = execAll is t := by
  rw [execAll, h]

theorem execAll_append_of_next {is js : List Instr} {s t : State} (h : execAll is s = .next t) :
    execAll (is ++ js) s = execAll js t := by
  induction is generalizing s with
  | nil => cases h; rfl
  | cons i is ih =>
    rw [List.cons_append, execAll]
    rw [execAll] at h
    cases he : exec i s with
    | next u => rw [he] at h; exact ih h
    | fault r => rw [he] at h; cases h
    | refused r => rw [he] at h; cases h

end Sys2Proof.Machine
end

