-- ==== Sys2Proof/Tests/Slice0.lean ====
section
/-! SUPPORT. Tests of the model on the spec's own examples (95_test_vectors.md; the section stands above each group), and, for
every statement with hypotheses, a witness: a concrete state and operands that meet them together. -/

namespace Sys2Proof.Tests

open Sys2Proof.Machine

/-! ## Helpers -/

/-- After hardware reset, with these capacities. -/
def fresh (rxcap txcap : Nat) : State :=
  State.resetWith { rxcap := rxcap, txcap := txcap }

/-- After hardware reset and these bytes offered to the reader. -/
def holding (rxcap : Nat) (bs : List Byte) : State :=
  (fresh rxcap 32).setReader (bs.foldl (fun r b => (frUpdate rxcap r b).1) Reader.reset)

/-- The same with the order last accepted. -/
def holdingAfter (rxcap : Nat) (bs : List Byte) (order : Word) : State :=
  (holding rxcap bs).setLastReceivedOrder order

/-- The state an outcome answers, if it answers one. -/
def stateOf (o : Host.Outcome State Fault Refusal) : Option State :=
  match o with
  | .next t => some t
  | .fault _ => none
  | .refused _ => none

/-- What a command hands over from a state that has handed over nothing. -/
def outputs (i : Instr) (s : State) : List Output :=
  match exec i s with
  | .next t => t.trace
  | .fault _ => []
  | .refused _ => []

/-- The statistics and orders after a command, `SR[0]` to `SR[10]`. -/
def statsAfter (i : Instr) (s : State) : List (Option Word) :=
  match exec i s with
  | .next t => (List.range 11).map (statusReg t)
  | .fault _ => []
  | .refused _ => []

/-- The span the reader holds after a command. -/
def spanAfter (i : Instr) (s : State) : List Byte :=
  match exec i s with
  | .next t => spanWith t.reader
  | .fault _ => []
  | .refused _ => []

/-- Frame F1 without its terminator (95_test_vectors.md section 1.4). -/
def f1Body : List Byte :=
  [0x05, 0x87, 0x1C, 0xA2, 0xD2, 0x02, 0x03, 0x02, 0x01, 0x01, 0x01, 0x03, 0x01, 0xAA, 0x02, 0x55]

/-- The region of F1. -/
def f1Region : List Byte :=
  [0x87, 0x1C, 0xA2, 0xD2, 0x00, 0x03, 0x00, 0x01, 0x00, 0x00, 0x00, 0x01, 0xAA, 0x00, 0x55]

/-- The region of section 2.6 whose `len` says 4 and whose payload has 3 bytes, with the CRC right. -/
def wrongLenBody : List Byte :=
  [0x05, 0x65, 0xC0, 0xB9, 0xAB, 0x02, 0x04, 0x02, 0x01, 0x01, 0x01, 0x03, 0x01, 0xAA, 0x02, 0x55]

/-- What `wrongLenBody` decodes to. -/
def wrongLenRegion : List Byte :=
  [0x65, 0xC0, 0xB9, 0xAB, 0x00, 0x04, 0x00, 0x01, 0x00, 0x00, 0x00, 0x01, 0xAA, 0x00, 0x55]

/-- A long run of one non-zero byte. -/
def ones (n : Nat) : List Byte :=
  List.replicate n 0x01

theorem length_ones (n : Nat) : (ones n).length = n := List.length_replicate

/-- The state in which the host presents one packet. -/
def presenting (p : List Byte) : State :=
  presentNext (fresh 32 32) p

/-! ## WellFormed: one ill-formed term for each check -/

theorem test_cobsEnc_too_long : ¬ (Instr.cobsEnc (ones 65278)).WellFormed := by
  show ¬ decide ((ones 65278).length ≤ 65277) = true
  rw [length_ones]
  decide

theorem test_cobsDec_too_long (f : Bool) : ¬ (Instr.cobsDec f (ones 65536)).WellFormed := by
  show ¬ decide ((ones 65536).length ≤ 65535) = true
  rw [length_ones]
  decide

theorem test_pmTx_too_long : ¬ (Instr.pmTx 1 1 (ones 65536)).WellFormed := by
  show ¬ decide ((ones 65536).length ≤ 65535) = true
  rw [length_ones]
  decide

theorem test_pmStat_index_11 : ¬ (Instr.pmStat 11).WellFormed := by decide

/-! ## Decoding: a packet written out from R77 for every command -/

theorem test_decode_cobs :
    decode [0x10, 0x00, 0x04, 0x11, 0x22, 0x00, 0x33] = .ok (.cobsEnc [0x11, 0x22, 0x00, 0x33]) ∧
    decode [0x11, 0x01, 0x00, 0x01, 0x01] = .ok (.cobsDec true [0x01]) ∧
    decode [0x11, 0x00, 0x00, 0x00] = .ok (.cobsDec false []) := ⟨rfl, rfl, rfl⟩

theorem test_decode_crc :
    decode [0x20] = .ok .crcInit ∧ decode [0x21, 0x31] = .ok (.crcUpd 0x31) ∧
    decode [0x22] = .ok .crcFin ∧ decode [0x23, 0xCE] = .ok (.crcTbl 0xCE) := ⟨rfl, rfl, rfl, rfl⟩

theorem test_decode_fr :
    decode [0x30] = .ok .frRst ∧ decode [0x31, 0x11] = .ok (.frUpd 0x11) ∧ decode [0x32] = .ok .frStat ∧
    decode [0x33] = .ok .frGetd ∧ decode [0x34] = .ok .frGet := ⟨rfl, rfl, rfl, rfl, rfl⟩

theorem test_decode_pm :
    decode [0x40] = .ok .pmRst ∧ decode [0x41, 0x05] = .ok (.pmRx 0x05) ∧
    decode [0x42, 0x12, 0x34, 0x02, 0x00, 0x03, 0xAA, 0x00, 0x55] = .ok (.pmTx 0x1234 2 [0xAA, 0x00, 0x55]) ∧
    decode [0x43, 0x0A] = .ok (.pmStat 10) := ⟨rfl, rfl, rfl, rfl⟩

/-- Section 2.7, with the reason the model names. -/
theorem test_decode_illegal :
    decode [] = .error .emptyPacket ∧ decode [0x12] = .error .unknownOpcode ∧ decode [0x44] = .error .unknownOpcode ∧
    decode [0x21] = .error .truncated ∧ decode [0x21, 0x01, 0x02] = .error .wrongLength ∧
    decode [0x10, 0x00] = .error .truncated ∧ decode [0x10, 0x00, 0x04, 0x11, 0x22] = .error .wrongLength ∧
    decode [0x11, 0x02, 0x00, 0x01, 0x01] = .error .reservedBits ∧
    decode [0x42, 0x00, 0x01, 0x01, 0x00, 0x03, 0xAA] = .error .wrongLength ∧
    decode [0x43, 0x0B] = .error .statusIndex :=
  ⟨rfl, rfl, rfl, rfl, rfl, rfl, rfl, rfl, rfl, rfl⟩

theorem test_table_words :
    decodeTableWord 24 0x000010 = some (.cobsEnc []) ∧ decodeTableWord 8 0x42 = some (.pmTx 0 0 []) ∧
    decodeTableWord 16 0xCE23 = some (.crcTbl 0xCE) ∧ decodeTableWord 8 0x12 = none := ⟨rfl, rfl, rfl, rfl⟩

theorem test_withFetchWord_runs :
    stateOf (step ((fresh 32 32).withFetchWord 16 0x3121)) =
      stateOf (exec (.crcUpd 0x31) (fresh 32 32)) := by decide +kernel

theorem test_command_text :
    String.ofList (commandText (.cobsDec true [0x03, 0x11])) = "COBS.DEC final=1, [0x03 0x11]" ∧
    String.ofList (commandText (.pmTx 0x0001 1 [0xAA, 0x00])) = "PM.TX id=0x0001, rep=1, [0xAA 0x00]" ∧
    String.ofList (commandText (.pmStat 10)) = "PM.STAT 10" := by decide +kernel

/-! ## COBS (sections 1.1, 2.2) -/

theorem test_cobsEnc :
    outputs (.cobsEnc [0x11, 0x22, 0x00, 0x33]) (fresh 32 32) =
      [.response [0x00, 0x00, 0x06, 0x03, 0x11, 0x22, 0x02, 0x33, 0x00]] ∧
    outputs (.cobsEnc []) (fresh 32 32) = [.response [0x00, 0x00, 0x02, 0x01, 0x00]] := by decide

theorem test_enc_full_block :
    enc (List.replicate 254 0x07) = 0xFF :: (List.replicate 254 0x07 ++ [0x01]) ∧
    enc (List.replicate 253 0x07) = 0xFE :: List.replicate 253 0x07 := by decide +kernel

theorem test_cobsDec :
    outputs (.cobsDec false [0x03, 0x11, 0x22, 0x02, 0x33, 0x00]) (fresh 32 32) =
      [.response [0x00, 0x00, 0x00, 0x04, 0x11, 0x22, 0x00, 0x33]] ∧
    outputs (.cobsDec false [0x03, 0x11, 0x22, 0x02, 0x33]) (fresh 32 32) = [.response [0x00, 0x01]] := by decide

theorem test_dec_results :
    (dec [] true).1 = .zeroLengthBlock ∧ (dec [0x02] true).1 = .tooShort ∧ (dec [0x03, 0x41, 0x00] true).1 = .unexpectedZero ∧
    dec (0xFF :: (List.replicate 254 0x07 ++ [0x01])) true = (.ok, List.replicate 254 0x07) ∧
    (dec (0xFF :: List.replicate 254 0x07) true).1 = .zeroLengthBlock := by decide +kernel

/-! ## CRC (sections 1.2, 2.1, 2.3) -/

theorem test_crcInit :
    (stateOf (exec .crcInit ((fresh 32 32).setCrcAcc 0x12345678))).map (·.crcAcc) = some 0xFFFFFFFF := by decide

theorem test_crcUpd :
    (stateOf (exec (.crcUpd 0xAB) ((fresh 32 32).setCrcAcc 0x12345678))).map (·.crcAcc) = some 0x1FC8B738 ∧
    (stateOf (exec (.crcUpd 0x31) (fresh 32 32))).map (·.crcAcc) = some 0x7C231048 := by decide +kernel

theorem test_crcFin :
    outputs .crcFin ((fresh 32 32).setCrcAcc 0x641C1F5C) = [.response [0x00, 0x9B, 0xE3, 0xE0, 0xA3]] := by decide

theorem test_crcTbl :
    outputs (.crcTbl 0xCE) (fresh 32 32) = [.response [0x00, 0x7C, 0xDC, 0xEF, 0xB7]] := by decide +kernel

theorem test_crc32 :
    crc32 [0x61] = 0xE8B7BE43 ∧ crc32 (List.replicate 12 0x00) = 0x7BD5C66F := by decide +kernel

/-! ## Frame Reader (sections 1.3, 2.4) -/

theorem test_frUpd_full_and_matched :
    outputs (.frUpd 0x05) (holding 4 [0x01, 0x02, 0x03, 0x04]) = [.response [0x00, 0x00]] ∧
    outputs (.frUpd 0x22) (holding 4 [0x11, 0x00]) = [.response [0x00, 0x00]] := by decide

theorem test_frUpd_taken :
    outputs (.frUpd 0x00) (holding 4 [0x01, 0x02, 0x03]) = [.response [0x00, 0x01]] ∧
    spanAfter (.frUpd 0x00) (holding 4 [0x01, 0x02, 0x03]) = [0x01, 0x02, 0x03, 0x00] := by decide

theorem test_frRst :
    outputs .frRst (holding 4 [0x11, 0x00]) = [.response [0x00]] ∧ spanAfter .frRst (holding 4 [0x11, 0x00]) = [] := by decide

theorem test_frStat :
    outputs .frStat (holding 4 [0x01, 0x02, 0x03, 0x04]) = [.response [0x00, 0x02, 0x00, 0x04]] ∧
    outputs .frStat (holding 4 [0x01, 0x02, 0x03, 0x00]) = [.response [0x00, 0x03, 0x00, 0x04]] := by decide

theorem test_frGetd :
    outputs .frGetd (holding 4 [0x11, 0x00]) = [.response [0x00, 0x00, 0x02, 0x11, 0x00]] ∧
    outputs .frGetd (fresh 4 32) = [.response [0x00, 0x00, 0x00]] := by decide

theorem test_frGet :
    outputs .frGet (holding 4 [0x11, 0x00]) = [.response [0x00, 0x00, 0x01, 0x11]] ∧
    outputs .frGet (holding 4 [0x00]) = [.response [0x00, 0x00, 0x00]] := by decide

theorem test_frGet_precond :
    outputs .frGet (holding 4 [0x01, 0x02, 0x03, 0x04]) = [.response [0x02]] := by decide

/-! ## PM.TX (sections 2.5, P4) -/

theorem test_pmTx_pairs :
    outputs (.pmTx 0x0001 2 [0xAA, 0x00, 0x55]) (fresh 32 32) =
      [.event .prepareTx, .event (.txBuffer (f1Body ++ [0x00])), .event .prepareTx,
       .event (.txBuffer (f1Body ++ [0x00])), .response [0x00, 0x00, 0x00, 0x00, 0x01]] := by decide +kernel

theorem test_pmTx_fit_boundary :
    outputs (.pmTx 0x0001 0 (List.replicate 18 0x01)) (fresh 32 32) = [.response [0x00, 0x00, 0x00, 0x00, 0x01]] ∧
    outputs (.pmTx 0x0001 1 (List.replicate 19 0x01)) (fresh 32 32) = [.response [0x00, 0x00, 0x00, 0x00, 0x00]] ∧
    outputs (.pmTx 0x0001 1 (List.replicate 21 0x01)) (fresh 32 32) = [.response [0x00, 0x00, 0x00, 0x00, 0x00]] := by
  decide +kernel

/-! ## PM.RX (sections 1.4, 1.6, 2.6, P3) -/

theorem test_pmRx_accepts :
    outputs (.pmRx 0x00) (holding 32 f1Body) =
      [.event (.rxPacket [0xAA, 0x00, 0x55] { crc := 0x871CA2D2, len := 3, id := 1, order := 1 }), .response [0x00]] ∧
    spanAfter (.pmRx 0x00) (holding 32 f1Body) = [0x00] := by decide +kernel

theorem test_pmRx_overrun :
    statsAfter (.pmRx 0x08) (holding 8 [0x01, 0x02, 0x03, 0x04, 0x05, 0x06, 0x07]) =
      [some 0, some 1, some 0, some 0, some 0, some 0, some 0, some 0, some 0, some 0, some 0] ∧
    spanAfter (.pmRx 0x08) (holding 8 [0x01, 0x02, 0x03, 0x04, 0x05, 0x06, 0x07]) = [0x08] := by decide

/-! ## PM.RST, PM.STAT (section 2.8) -/

theorem test_pmRst :
    (stateOf (exec .pmRst (holdingAfter 32 [0x00] 4))).map (fun t => (List.range 11).map (statusReg t)) =
      some [some 0, some 0, some 0, some 0, some 0, some 0, some 0, some 0, some 1, some 0, some 0] ∧
    spanAfter .pmRst (holdingAfter 32 [0x00] 4) = [0x00] := by decide

theorem test_pmStat :
    outputs (.pmStat 10) (holdingAfter 32 [] 4) = [.response [0x00, 0x00, 0x00, 0x00, 0x04]] ∧
    outputs (.pmStat 9) ((fresh 32 32).setLastSentOrder 0x01020304) =
      [.response [0x00, 0x01, 0x02, 0x03, 0x04]] := by decide

/-! ## Witnesses: encoding and the command port -/

/-- DecodeEncodeRoundTrip, at the longest vectors. -/
theorem witness_DecodeEncodeRoundTrip :
    (Instr.cobsEnc (ones 65277)).WellFormed ∧
    (Instr.cobsDec true (ones 65535)).WellFormed ∧
    (Instr.pmTx 1 1 (ones 65535)).WellFormed ∧ (Instr.pmStat 10).WellFormed := by
  show decide ((ones 65277).length ≤ 65277) = true ∧ decide ((ones 65535).length ≤ 65535) = true ∧
    decide ((ones 65535).length ≤ 65535) = true ∧ _
  rw [length_ones, length_ones]
  decide

theorem witness_DecodedPacketIsItsEncoding : decode [0x11, 0x01, 0x00, 0x01, 0x01] = .ok (.cobsDec true [0x01]) := rfl

theorem witness_StepRunsDecodedCommand :
    (presenting [0x21, 0x31]).pending = [.packet [0x21, 0x31]] ∧ decode [0x21, 0x31] = .ok (.crcUpd 0x31) := ⟨rfl, rfl⟩

theorem witness_IllegalPacketIsAnsweredIllegal :
    (presenting [0x43, 0x0B]).pending = [.packet [0x43, 0x0B]] ∧ illegalPacket [0x43, 0x0B] = true ∧
    illegalPacket [0x43, 0x0A] = false ∧ illegalPacket [] = true ∧ illegalPacket [0x11, 0x02, 0x00, 0x00] = true ∧
    illegalPacket [0x20, 0x00] = true ∧ illegalPacket [0x21] = true ∧ illegalPacket [0x44] = true := by decide

/-- The length field of the first illegal COBS.ENC vector of R78 f and of the last legal one. -/
theorem witness_illegalPacket_vector_bound :
    vectorLength 0x10 [0x10, 0xFE, 0xFE] = 65278 ∧ vectorLength 0x10 [0x10, 0xFE, 0xFD] = 65277 := by decide

theorem witness_IdleAndOverlappingPort :
    (fresh 32 32).pending = [] ∧
    ((fresh 32 32).setPending [.overlapping [[0x20], [0x22]]]).pending = .overlapping [[0x20], [0x22]] :: [] := ⟨rfl, rfl⟩

theorem witness_RunExecutesPresentedCommandsInOrder :
    (∀ i ∈ [Instr.crcInit, .crcUpd 0x31, .pmTx 1 1 [0x09]], i.WellFormed) ∧
    ((fresh 32 32).setPending [.packet [0x20], .packet [0x21, 0x31], .packet [0x42, 0x00, 0x01, 0x01, 0x00, 0x01, 0x09],
      .overlapping []]).pending =
      [Instr.crcInit, .crcUpd 0x31, .pmTx 1 1 [0x09]].map (fun i => .packet (encode i)) ++ [.overlapping []] := by
  decide

theorem witness_EventsComeOnlyFromThePacketManager :
    (∃ t, exec (.pmRx 0x00) (holding 32 f1Body) = .next t ∧
      t.trace = [] ++ [Event.rxPacket [0xAA, 0x00, 0x55] { crc := 0x871CA2D2, len := 3, id := 1, order := 1 }].map .event
        ++ [.response [0x00]]) ∧
    (∃ t, exec (.pmTx 0x0001 1 [0xAA, 0x00, 0x55]) (fresh 32 32) = .next t ∧
      t.trace = [] ++ [Event.prepareTx, .txBuffer (f1Body ++ [0x00])].map .event
        ++ [.response [0x00, 0x00, 0x00, 0x00, 0x01]]) :=
  ⟨⟨_, rfl, test_pmRx_accepts.1⟩, ⟨_, rfl, by decide +kernel⟩⟩

theorem witness_OutcomeDoesNotReadTraceOrPending : ∃ t, exec .crcFin (presenting [0x20]) = .next t := ⟨_, rfl⟩

/-! ## Witnesses: invariants and frames -/

theorem witness_StepKeepsInvariant :
    CoreInv ((holding 4 [0x11, 0x00]).setPending [.packet [0x41, 0x05]]) ∧
    ∃ t, step ((holding 4 [0x11, 0x00]).setPending [.packet [0x41, 0x05]]) = .next t := ⟨by decide, _, rfl⟩

theorem witness_ResetMeetsInvariant :
    CapsInv { rxcap := 1, txcap := 1 } ∧ CapsInv { rxcap := 65535, txcap := 65535 } := by decide

theorem witness_ResetValues : CapsInv { rxcap := 1, txcap := 65535 } ∧ (10 : Nat) ≤ 10 := by decide

theorem witness_CapacitiesNeverChange : ∃ t, step (presenting [0x40]) = .next t := ⟨_, rfl⟩

theorem witness_EachRegisterHasItsWriters :
    (∃ t, exec (.frUpd 0x11) (fresh 4 32) = .next t) ∧ (∃ t, exec (.crcUpd 0x11) (fresh 4 32) = .next t) ∧
    (∃ t, exec (.pmTx 1 1 []) (fresh 4 32) = .next t) := ⟨⟨_, rfl⟩, ⟨_, rfl⟩, ⟨_, rfl⟩⟩

theorem witness_ReadsChangeNothing :
    (∃ t, exec .frGet (holding 4 [0x11, 0x00]) = .next t) ∧
    (∃ t u, exec .frRst (holding 4 [0x11, 0x00]) = .next t ∧ exec .frRst t = .next u) := ⟨⟨_, rfl⟩, _, _, rfl, rfl⟩

/-- FrUpdStoresAtMostOneByte: the step, an index stored to and one that is not. -/
theorem witness_FrUpdStoresAtMostOneByte :
    (∃ t, exec (.frUpd 0x11) (holding 4 [0x01]) = .next t) ∧
    ¬ (frClosed 4 (holding 4 [0x01]).reader = false ∧ (0 : Nat) = (holding 4 [0x01]).reader.len) ∧
    (frClosed 4 (holding 4 [0x01]).reader = false ∧ (1 : Nat) = (holding 4 [0x01]).reader.len) :=
  ⟨⟨_, rfl⟩, by decide, by decide⟩

/-- PmRxStoresOnlyTheReceivedByte, the frame: an attempt, at index 3 of a reader of 4 that holds two bytes. -/
theorem witness_PmRxStoresOnlyTheReceivedByte :
    (∃ t, exec (.pmRx 0x00) (holding 4 [0x01, 0x02]) = .next t) ∧
    ¬ (frClosed 4 (holding 4 [0x01, 0x02]).reader = false ∧ (3 : Nat) = (holding 4 [0x01, 0x02]).reader.len) ∧
    ¬ (frClosed 4 (frUpdate 4 (holding 4 [0x01, 0x02]).reader 0x00).1 = true ∧ (3 : Nat) = 0) :=
  ⟨⟨_, rfl⟩, by decide, by decide⟩

/-- PmRxStoresOnlyTheReceivedByte, the bytes stored: a byte that fills the reader is both taken and re-fed; one that a matched
reader rejects is re-fed only; one that leaves the reader open is taken only. -/
theorem witness_PmRxStoresOnlyTheReceivedByte_stored :
    (CoreInv (holding 4 [0x01, 0x02, 0x03]) ∧ frClosed 4 (holding 4 [0x01, 0x02, 0x03]).reader = false ∧
      frClosed 4 (frUpdate 4 (holding 4 [0x01, 0x02, 0x03]).reader 0x04).1 = true) ∧
    (CoreInv (holding 1 [0x00]) ∧ frClosed 1 (holding 1 [0x00]).reader = true ∧
      frClosed 1 (frUpdate 1 (holding 1 [0x00]).reader 0x05).1 = true) ∧
    (CoreInv (fresh 4 32) ∧ frClosed 4 (fresh 4 32).reader = false ∧
      frClosed 4 (frUpdate 4 (fresh 4 32).reader 0x05).1 = false) :=
  ⟨by decide, by decide, by decide⟩

/-! ## Witnesses: COBS and CRC -/

/-- EncoderBlockRules: runs of 253 and of 254 non-zero bytes. -/
theorem witness_EncoderBlockRules :
    (∀ b ∈ List.replicate 253 (0x07 : Byte), b ≠ 0x00) ∧ (List.replicate 253 (0x07 : Byte)).length ≤ 253 ∧
    (∀ b ∈ List.replicate 254 (0x07 : Byte), b ≠ 0x00) ∧ (List.replicate 254 (0x07 : Byte)).length = 254 := by
  decide +kernel

/-- DecoderRules: a run cut short, a full block, a short block and a block of no literals. -/
theorem witness_DecoderRules :
    ([0x41] : List Byte).length < (0x03 : Byte).toNat - 1 ∧
    (List.replicate 254 (0x07 : Byte)).length = (0xFF : Byte).toNat - 1 ∧
    (List.replicate 253 (0x07 : Byte)).length = (0xFE : Byte).toNat - 1 ∧ (0xFE : Byte) ≠ 0xFF ∧
    ([] : List Byte).length = (0x01 : Byte).toNat - 1 ∧ (0x01 : Byte) ≠ 0x00 ∧ (∀ b ∈ ([0x41] : List Byte), b ≠ 0x00) := by
  decide +kernel

/-- TerminatorAgreement: each of the three results. -/
theorem witness_TerminatorAgreement :
    (0x00 ∉ ([0x02, 0x41] : List Byte) ∧ (dec [0x02, 0x41] true).1 = .ok) ∧
    (0x00 ∉ ([0x02] : List Byte) ∧ (dec [0x02] true).1 = .tooShort) ∧
    (0x00 ∉ ([] : List Byte) ∧ (dec [] true).1 = .zeroLengthBlock) := by decide

theorem witness_DecoderAcceptsCanonicalOnly :
    0x00 ∉ ([0x03, 0x11, 0x22, 0x02, 0x33] : List Byte) ∧
    dec [0x03, 0x11, 0x22, 0x02, 0x33] true = (.ok, [0x11, 0x22, 0x00, 0x33]) := by decide

/-- CobsEncAnswersEncoding: the longest vector. -/
theorem witness_CobsEncAnswersEncoding : (ones 65277).length ≤ 65277 := by rw [length_ones]

theorem witness_CobsDecAnswersDecoding :
    (ones 65535).length ≤ 65535 ∧ dec [0x01] true = (.ok, []) ∧
    dec [0x02] true = (.tooShort, []) ∧ CobsResult.tooShort ≠ .ok := by
  refine ⟨by rw [length_ones], ?_⟩
  decide

theorem witness_SingleByteChangeChangesCrc : (0x31 : Byte) ≠ 0x30 := by decide

/-- SingleByteDamageIsDetected: the region of F1, at a payload byte and at a byte of the stored CRC. -/
theorem witness_SingleByteDamageIsDetected :
    (0xAA : Byte) ≠ 0xAB ∧ f1Region = f1Region.take 12 ++ 0xAA :: [0x00, 0x55] ∧
    f1Region = [0x87] ++ 0x1C :: f1Region.drop 2 ∧ 12 ≤ f1Region.length ∧
    frameCrc f1Region = (parseHeader f1Region).crc := by decide +kernel

/-! ## Witnesses: Frame Reader -/

/-- FrUpdTakesOrRejects: full, matched, and one place left. -/
theorem witness_FrUpdTakesOrRejects :
    (CoreInv (holding 4 [0x01, 0x02, 0x03, 0x04]) ∧ (holding 4 [0x01, 0x02, 0x03, 0x04]).reader.len = 4) ∧
    (CoreInv (holding 4 [0x11, 0x00]) ∧ (holding 4 [0x11, 0x00]).reader.m = 1) ∧
    (CoreInv (holding 4 [0x01, 0x02, 0x03]) ∧ (holding 4 [0x01, 0x02, 0x03]).reader.len < 4 ∧
      (holding 4 [0x01, 0x02, 0x03]).reader.m = 0) :=
  ⟨by decide, by decide, by decide⟩

theorem witness_FrRstEmptiesTheReader : 1 ≤ (fresh 1 32).caps.rxcap := by decide

theorem witness_FrStatAnswersFlagsAndLevel :
    CoreInv (holding 4 [0x01, 0x02, 0x03, 0x00]) ∧ CoreInv (fresh 1 1) := ⟨by decide, by decide⟩

theorem witness_FrGetdAnswersTheSpan : CoreInv (holding 4 [0x11, 0x00]) ∧ 1 < (holding 4 [0x11, 0x00]).reader.len := by decide

theorem witness_FrGetAnswersTheSpanOrPrecond :
    (CoreInv (holding 4 [0x00]) ∧ (holding 4 [0x00]).reader.m = 1) ∧
    (CoreInv (holding 4 [0x01, 0x02, 0x03, 0x04]) ∧ (holding 4 [0x01, 0x02, 0x03, 0x04]).reader.m = 0) :=
  ⟨by decide, by decide⟩

/-- ReaderExhaustion: the smallest reader, and the one of section 1.3. -/
theorem witness_ReaderExhaustion :
    (1 ≤ (fresh 1 32).caps.rxcap ∧ (fresh 1 32).reader.len = 0 ∧ ([0x05] : List Byte).length = (fresh 1 32).caps.rxcap) ∧
    (1 ≤ (fresh 4 32).caps.rxcap ∧ (fresh 4 32).caps.rxcap ≤ 65535 ∧ (fresh 4 32).reader.len = 0 ∧
      (fresh 4 32).reader.m = 0 ∧ ([0x01, 0x02, 0x03, 0x04] : List Byte).length = (fresh 4 32).caps.rxcap ∧
      ∀ b ∈ ([0x01, 0x02, 0x03, 0x04] : List Byte), b ≠ 0x00) := by decide

/-! ## Witnesses: PM.TX -/

/-- R83's worked bytes: the header fields of F1 (section 1.4). -/
theorem test_header_fields :
    parseHeader f1Region = { crc := 0x871CA2D2, len := 3, id := 1, order := 1 } ∧
    buildRegion 0x0001 [0xAA, 0x00, 0x55] 1 = f1Region := by decide +kernel

/-- RegionParsing and BuiltRegionParsesBack: the shortest and the longest payload. -/
theorem witness_BuiltRegionParsesBack :
    ([] : List Byte).length ≤ 65535 ∧ (ones 65535).length ≤ 65535 := by
  rw [length_ones]
  decide

/-- PmTxSendsExactlyWhenTheFrameFits: the last payload that fits and the first that does not (section 2.5). -/
theorem witness_PmTxSendsExactlyWhenTheFrameFits :
    (enc (buildRegion 1 (List.replicate 18 0x01) ((fresh 32 32).pm.lastSentOrder + 1))).length + 1 ≤ (fresh 32 32).caps.txcap ∧
    (fresh 32 32).caps.txcap < (enc (buildRegion 1 (List.replicate 19 0x01) ((fresh 32 32).pm.lastSentOrder + 1))).length + 1 := by
  decide +kernel

/-- PmTxSucceedsWithMargin: each condition at its boundary. -/
theorem witness_PmTxSucceedsWithMargin :
    12 + (List.replicate 18 (0x01 : Byte)).length + (12 + (List.replicate 18 (0x01 : Byte)).length) / 254 + 2 ≤ 32 ∧
    (12 + (List.replicate 241 (0x01 : Byte)).length < 254 ∧ (List.replicate 241 (0x01 : Byte)).length + 14 ≤ 255) := by
  decide +kernel

/-- PmTxOrderWraps: the wrap of section 2.5. -/
theorem witness_PmTxOrderWraps :
    ((fresh 32 32).setLastSentOrder 0xFFFFFFFF).pm.lastSentOrder = 0xFFFFFFFF ∧
    (enc (buildRegion 1 [0x09] 0)).length + 1 ≤ ((fresh 32 32).setLastSentOrder 0xFFFFFFFF).caps.txcap := by decide +kernel

/-! ## Witnesses: PM.RX -/

/-- PmRxSituations and the statements about each: every form of each situation, at its boundary. -/
theorem witness_PmRxSituations :
    (CoreInv (holding 4 [0x01, 0x02]) ∧ Accumulates (holding 4 [0x01, 0x02]) 0x03) ∧
    (CoreInv (holding 4 [0x01, 0x02, 0x03]) ∧ Overruns (holding 4 [0x01, 0x02, 0x03]) 0x04) ∧
    (CoreInv (holding 4 [0x01, 0x02, 0x03, 0x04]) ∧ Overruns (holding 4 [0x01, 0x02, 0x03, 0x04]) 0x00) ∧
    (CoreInv (holding 4 [0x01, 0x02, 0x03]) ∧ AttemptOn (holding 4 [0x01, 0x02, 0x03]) 0x00 [0x01, 0x02, 0x03, 0x00]) ∧
    (CoreInv (holding 4 [0x01, 0x00]) ∧ AttemptOn (holding 4 [0x01, 0x00]) 0x05 [0x01, 0x00]) :=
  ⟨by decide, by decide, by decide, by decide, by decide⟩

theorem witness_PmRxAccumulates : CoreInv (fresh 2 1) ∧ Accumulates (fresh 2 1) 0x03 := by decide

theorem witness_PmRxOverrun : CoreInv (fresh 1 1) ∧ Overruns (fresh 1 1) 0x03 := by decide

theorem witness_PmRxDecodeError :
    CoreInv (holding 32 [0x05, 0x01, 0x02]) ∧ AttemptOn (holding 32 [0x05, 0x01, 0x02]) 0x00 [0x05, 0x01, 0x02, 0x00] ∧
    (dec [0x05, 0x01, 0x02, 0x00] true).1 ≠ .ok := by decide

/-- PmRxLengthError, first case: eleven decoded bytes (section 2.6). -/
theorem witness_PmRxLengthError_short :
    CoreInv (holding 32 (0x0C :: List.replicate 11 0x01)) ∧
    AttemptOn (holding 32 (0x0C :: List.replicate 11 0x01)) 0x00 (0x0C :: (List.replicate 11 0x01 ++ [0x00])) ∧
    dec (0x0C :: (List.replicate 11 0x01 ++ [0x00])) true = (.ok, List.replicate 11 0x01) ∧
    (List.replicate 11 (0x01 : Byte)).length < 12 := by decide +kernel

/-- PmRxLengthError, second case: `len` is 4, the payload has 3 bytes, the CRC is right (section 2.6). -/
theorem witness_PmRxLengthError_mismatch :
    CoreInv (holding 32 wrongLenBody) ∧ AttemptOn (holding 32 wrongLenBody) 0x00 (wrongLenBody ++ [0x00]) ∧
    dec (wrongLenBody ++ [0x00]) true = (.ok, wrongLenRegion) ∧ 12 ≤ wrongLenRegion.length ∧
    frameCrc wrongLenRegion = (parseHeader wrongLenRegion).crc ∧
    (regionPayload wrongLenRegion).length ≠ (parseHeader wrongLenRegion).len.toNat := by decide +kernel

/-- PmRxCrcError: twelve decoded bytes 01 (section 2.6). -/
theorem witness_PmRxCrcError :
    CoreInv (holding 32 (0x0D :: List.replicate 12 0x01)) ∧
    AttemptOn (holding 32 (0x0D :: List.replicate 12 0x01)) 0x00 (0x0D :: (List.replicate 12 0x01 ++ [0x00])) ∧
    dec (0x0D :: (List.replicate 12 0x01 ++ [0x00])) true = (.ok, List.replicate 12 0x01) ∧
    12 ≤ (List.replicate 12 (0x01 : Byte)).length ∧
    frameCrc (List.replicate 12 0x01) ≠ (parseHeader (List.replicate 12 0x01)).crc := by decide +kernel

/-- F1 at the receiver, whatever order it accepted last. -/
theorem witness_ValidRegion :
    dec (f1Body ++ [0x00]) true = (.ok, f1Region) ∧ ValidRegion f1Region ∧ (parseHeader f1Region).order = 1 := by
  decide +kernel

theorem witness_PmRxDuplicate :
    CoreInv (holdingAfter 32 f1Body 1) ∧ AttemptOn (holdingAfter 32 f1Body 1) 0x00 (f1Body ++ [0x00]) ∧
    (parseHeader f1Region).order = (holdingAfter 32 f1Body 1).pm.lastReceivedOrder := by decide +kernel

theorem witness_PmRxRegression :
    CoreInv (holdingAfter 32 f1Body 2) ∧ AttemptOn (holdingAfter 32 f1Body 2) 0x00 (f1Body ++ [0x00]) ∧
    (parseHeader f1Region).order.toNat < (holdingAfter 32 f1Body 2).pm.lastReceivedOrder.toNat := by decide +kernel

theorem witness_PmRxAcceptsAndDispatches :
    CoreInv (holdingAfter 32 f1Body 0) ∧ AttemptOn (holdingAfter 32 f1Body 0) 0x00 (f1Body ++ [0x00]) ∧
    (holdingAfter 32 f1Body 0).pm.lastReceivedOrder.toNat < (parseHeader f1Region).order.toNat := by decide +kernel

/-- PmRxDecodeResults: both results occur. -/
theorem witness_PmRxDecodeResults :
    (CoreInv (holding 32 f1Body) ∧ AttemptOn (holding 32 f1Body) 0x00 (f1Body ++ [0x00]) ∧
      (dec (f1Body ++ [0x00]) true).1 = .ok) ∧
    (CoreInv (holding 32 [0x00]) ∧ AttemptOn (holding 32 [0x00]) 0x05 [0x00] ∧
      (dec [0x00] true).1 = .unexpectedZero) :=
  ⟨by decide +kernel, by decide +kernel⟩

theorem witness_OneByteSpanCountsADecodeError :
    CoreInv (holding 1 [0x00]) ∧ (holding 1 [0x00]).reader.len = 1 ∧ (holding 1 [0x00]).reader.m = 1 := by decide

/-- TransmittedFrameIsReceived: F1 at a reader that it just fits. -/
theorem witness_TransmittedFrameIsReceived :
    CoreInv (fresh 17 32) ∧ (fresh 17 32).reader.len = 0 ∧ (fresh 17 32).reader.m = 0 ∧
    ([0xAA, 0x00, 0x55] : List Byte).length ≤ 65535 ∧
    (frameOf (buildRegion 1 [0xAA, 0x00, 0x55] 1)).length ≤ (fresh 17 32).caps.rxcap ∧
    (fresh 17 32).pm.lastReceivedOrder.toNat < (1 : Word).toNat := by decide +kernel

theorem witness_PmStatAnswersStatusRegister :
    10 < (11 : Byte).toNat ∧ (10 : Byte).toNat = 10 ∧ CoreInv (fresh 1 1) := by decide

end Sys2Proof.Tests
end

section
/-! PROOFS. The scope family (spec 00_scope.md): the command port runs what it decodes (R15), and multi-byte fields are
big-endian (R12). -/

namespace Sys2Proof.Machine

/-- A decoded command is executed on the state with its packet taken. -/
theorem step_of_command (s : State) (p : List Byte) (rest : List Presentation) (i : Instr)
    (h : s.pending = .packet p :: rest) (hd : decode p = .ok i) : step s = exec i (s.setPending rest) := by
  rw [step, fetch_of_command s p rest i h hd]

/-- Two bytes side by side are stored in the order they are written. -/
theorem be16_append (a b : Byte) : be16 (a ++ b) = [a, b] := by
  have ha : (a ++ b : Half).extractLsb' 8 8 = a := BitVec.extractLsb'_append_eq_left
  have hb : (a ++ b : Half).extractLsb' 0 8 = b := BitVec.extractLsb'_append_eq_right
  rw [be16, ha, hb]

/-- Above its low byte, an appended field is the field it extends. -/
theorem extractLsb'_append_byte {n : Nat} (x : BitVec n) (b : Byte) (k len : Nat) :
    (x ++ b).extractLsb' (k + 8) len = x.extractLsb' k len := by
  rw [BitVec.extractLsb'_append_eq_of_le (Nat.le_add_left 8 k), Nat.add_sub_cancel]

/-- Four bytes side by side are stored in the order they are written. -/
theorem be32_append (a b c d : Byte) : be32 (a ++ b ++ c ++ d) = [a, b, c, d] := by
  have hd : (a ++ b ++ c ++ d : Word).extractLsb' 0 8 = d := BitVec.extractLsb'_append_eq_right
  have hc : (a ++ b ++ c ++ d : Word).extractLsb' 8 8 = c :=
    (extractLsb'_append_byte (a ++ b ++ c) d 0 8).trans BitVec.extractLsb'_append_eq_right
  have above (k : Nat) : (a ++ b ++ c ++ d : Word).extractLsb' (k + 16) 8 = (a ++ b : Half).extractLsb' k 8 :=
    (extractLsb'_append_byte (a ++ b ++ c) d (k + 8) 8).trans (extractLsb'_append_byte (a ++ b) c k 8)
  have hb : (a ++ b ++ c ++ d : Word).extractLsb' 16 8 = b := (above 0).trans BitVec.extractLsb'_append_eq_right
  have ha : (a ++ b ++ c ++ d : Word).extractLsb' 24 8 = a := (above 8).trans BitVec.extractLsb'_append_eq_left
  rw [be32, ha, hb, hc, hd]

/-- Reading two bytes puts the first in the high half, since `unbe16` undoes `be16`. -/
theorem unbe16_pair (a b : Byte) : unbe16 [a, b] = a ++ b := by
  rw [← be16_append, unbe16_be16]

/-- Reading four bytes puts the first at the top, since `unbe32` undoes `be32`. -/
theorem unbe32_quad (a b c d : Byte) : unbe32 [a, b, c, d] = a ++ b ++ c ++ d := by
  rw [← be32_append, unbe32_be32]

/-- Settles O5: the port hands `exec` the decoded command and the state with `rest` pending. -/
theorem stepRunsDecodedCommand : Obligations.StepRunsDecodedCommand :=
  step_of_command

/-- Settles O40: the bytes written are the operands in order, and reading undoes writing. -/
theorem fieldsAreBigEndian : Obligations.FieldsAreBigEndian :=
  fun a b c d => ⟨be16_append a b, unbe16_pair a b, be32_append a b c d, unbe32_quad a b c d⟩

end Sys2Proof.Machine
end

section
/-! PROOFS. The state family (spec 10_state.md): which registers each command writes (R22 to R28, R228, R241), that what is
written depends neither on the trace nor on the port (R32), and that a run is its commands in order (R21). -/

/-! ## The port reads back what the encoder writes -/

namespace Sys2Proof

open Sys2Proof.Machine

theorem parseV_vectorField (data : List Byte) (h : data.length ≤ 65535) : parseV (vectorField data) = .ok data := by
  obtain ⟨hi, lo, e, hp⟩ := parseVector_vectorField data h
  rw [e, parseV, hp]

theorem parseDV_finalField (final : Bool) (data : List Byte) (h : data.length ≤ 65535) :
    parseDV (finalField final :: vectorField data) = .ok (final, data) := by
  obtain ⟨hi, lo, e, hp⟩ := parseVector_vectorField data h
  rw [e, parseDV, hp]
  cases final <;> rfl

theorem parseTX_be16 (id : Half) (rep : Byte) (data : List Byte) (h : data.length ≤ 65535) :
    parseTX (be16 id ++ rep :: vectorField data) = .ok (id, rep, data) := by
  obtain ⟨hi, lo, e, hp⟩ := parseVector_vectorField data h
  rw [e, show parseTX (be16 id ++ rep :: hi :: lo :: data) =
    (parseVector hi lo data).map fun d => (unbe16 (be16 id), rep, d) from rfl, hp, unbe16_be16]
  rfl

/-- The decoder reads a command back from its packet; only the formats with a vector need an argument. -/
theorem decode_encode (i : Instr) (h : i.WellFormed) : decode (encode i) = .ok i := by
  cases i with
  | cobsEnc data =>
    have hn : data.length ≤ Config.nmax := of_decide_eq_true h
    change decodeOperands .cobsEnc (vectorField data) = _
    rw [decodeOperands, parseV_vectorField data (Nat.le_trans hn (by decide))]
    exact if_pos hn
  | cobsDec final data =>
    change decodeOperands .cobsDec (finalField final :: vectorField data) = _
    rw [decodeOperands, parseDV_finalField final data (of_decide_eq_true h)]
    rfl
  | pmTx id rep data =>
    change decodeOperands .pmTx (be16 id ++ rep :: vectorField data) = _
    rw [decodeOperands, parseTX_be16 id rep data (of_decide_eq_true h)]
    rfl
  | pmStat b => exact if_pos (of_decide_eq_true h)
  | crcInit | crcUpd | crcFin | crcTbl | frRst | frUpd | frStat | frGetd | frGet | pmRst | pmRx => rfl

end Sys2Proof

namespace Sys2Proof.Machine

/-! ## What a command can do -/

/-- The values a command executed in `s` may leave in `CRC_ACC`, the Frame Reader and the Packet Manager: those `s` holds,
except in the units the command writes (R22, R228, R241). Tied to `exec` by `exec_leaves`. -/
inductive MayWrite (s : State) : Instr → Word → Reader → PacketManager → Prop
  | nothing (i : Instr) : MayWrite s i s.crcAcc s.reader s.pm
  | crcInit (v : Word) : MayWrite s .crcInit v s.reader s.pm
  | crcUpd (b : Byte) (v : Word) : MayWrite s (.crcUpd b) v s.reader s.pm
  | frRst (r : Reader) : MayWrite s .frRst s.crcAcc r s.pm
  | frUpd (b : Byte) (r : Reader) : MayWrite s (.frUpd b) s.crcAcc r s.pm
  | pmRst (p : PacketManager) : MayWrite s .pmRst s.crcAcc s.reader p
  | pmRx (b : Byte) (r : Reader) (p : PacketManager) : MayWrite s (.pmRx b) s.crcAcc r p
  | pmTx (id : Half) (rep : Byte) (data : List Byte) (order : Word) :
      MayWrite s (.pmTx id rep data) s.crcAcc s.reader { s.pm with lastSentOrder := order }

/-- Executing `i` leaves `v`, `r` and `p` in the units and hands over `outs`, whatever the trace and the port of `s` hold. -/
def Leaves (i : Instr) (s : State) (v : Word) (r : Reader) (p : PacketManager) (outs : List Output) : Prop :=
  ∀ (tr : List Output) (ps : List Presentation),
    exec i { s with trace := tr, pending := ps } =
      .next { s with crcAcc := v, reader := r, pm := p, trace := tr ++ outs, pending := ps }

/-- PM.TX answers 0 where a test of the buffer fails and sends where both pass; both read the capacities, `LAST_SENT_ORDER`
and the operands alone (R175). -/
theorem pmTx_leaves (id : Half) (rep : Byte) (data : List Byte) (s : State) :
    ∃ v r p outs, MayWrite s (.pmTx id rep data) v r p ∧ Leaves (.pmTx id rep data) s v r p outs := by
  by_cases hr : s.caps.txcap < Config.hdrSize + data.length
  · exact ⟨_, _, _, _, .nothing _, fun _ _ => congrArg _ (if_pos hr)⟩
  · let order := s.pm.lastSentOrder + 1
    let frame := frameOf (buildRegion id data order)
    by_cases hf : s.caps.txcap < frame.length
    · exact ⟨_, _, _, _, .nothing _, fun _ _ => congrArg _ ((if_neg hr).trans (if_pos hf))⟩
    · exact ⟨_, _, _, txEvents rep.toNat frame ++ [.response (statusCode .ok :: be32 order)],
        .pmTx id rep data order, fun _ _ =>
          congrArg _ ((if_neg hr).trans ((if_neg hf).trans (State.deliver_deliver _ _ _)))⟩

/-- PM.RX puts its response after what the attempt hands over (R181). -/
theorem pmRx_leaves (b : Byte) (s : State) :
    ∃ v r p outs, MayWrite s (.pmRx b) v r p ∧ Leaves (.pmRx b) s v r p outs := by
  obtain ⟨r, p, outs, -, he⟩ := rxByte_effect b s
  refine ⟨s.crcAcc, r, p, outs ++ [.response [statusCode .ok]], .pmRx b r p, fun tr ps => ?_⟩
  rw [← List.append_assoc, exec, execPmRx, he]
  rfl

/-- Everything a command does: it completes, writes only its own units, and neither the trace nor the port decides what. -/
theorem exec_leaves (i : Instr) (s : State) : ∃ v r p outs, MayWrite s i v r p ∧ Leaves i s v r p outs := by
  cases i with
  | cobsEnc | cobsDec | crcTbl => exact ⟨_, _, _, _, .nothing _, fun _ _ => rfl⟩
  | crcInit => exact ⟨_, _, _, _, .crcInit Config.crc32IsoHdlc.init, fun _ _ => rfl⟩
  | crcUpd b => exact ⟨_, _, _, _, .crcUpd b (upd s.crcAcc b), fun _ _ => rfl⟩
  | crcFin => exact ⟨_, _, _, [.response (statusCode .ok :: be32 (fin s.crcAcc))], .nothing _, fun _ _ => rfl⟩
  | frRst => exact ⟨_, _, _, _, .frRst (frReset s.reader), fun _ _ => rfl⟩
  | frUpd b =>
    let u := frUpdate s.caps.rxcap s.reader b
    exact ⟨_, _, _, [.response [statusCode .ok, if u.2 then 0x01 else 0x00]], .frUpd b u.1, fun _ _ => rfl⟩
  | frStat =>
    exact ⟨_, _, _, [.response (statusCode .ok :: flagByte s.caps.rxcap s.reader :: lengthField s.reader.len)],
      .nothing _, fun _ _ => rfl⟩
  | frGetd =>
    exact ⟨_, _, _, [.response (statusCode .ok :: (lengthField s.reader.len ++ spanWith s.reader))],
      .nothing _, fun _ _ => rfl⟩
  | frGet =>
    by_cases hm : haveMatch s.reader = true
    · exact ⟨_, _, _,
        [.response (statusCode .ok :: (lengthField (s.reader.len - Config.dlen) ++ spanWithout s.reader))],
        .nothing _, fun _ _ => congrArg _ (if_pos hm)⟩
    · exact ⟨_, _, _, [.response [statusCode .precond]], .nothing _, fun _ _ => congrArg _ (if_neg hm)⟩
  | pmRst => exact ⟨_, _, _, _, .pmRst (pmReset s).pm, fun _ _ => rfl⟩
  | pmRx b => exact pmRx_leaves b s
  | pmTx id rep data => exact pmTx_leaves id rep data s
  | pmStat b =>
    have hx (tr : List Output) (ps : List Presentation) :
        statusReg { s with trace := tr, pending := ps } b.toNat = statusReg s b.toNat := rfl
    cases h : statusReg s b.toNat with
    | none =>
      refine ⟨_, _, _, [.response [statusCode .illegal]], .nothing _, fun tr ps => ?_⟩
      rw [exec, execPmStat, hx, h]
      rfl
    | some v =>
      refine ⟨_, _, _, [.response (statusCode .ok :: be32 v)], .nothing _, fun tr ps => ?_⟩
      rw [exec, execPmStat, hx, h]
      rfl

/-- The state a command answers: the units as `MayWrite` lists them, the trace longer by what is handed over, all else kept. -/
theorem exec_next {i : Instr} {s t : State} (h : exec i s = .next t) :
    ∃ v r p outs, MayWrite s i v r p ∧ Leaves i s v r p outs ∧
      t = { s with crcAcc := v, reader := r, pm := p, trace := s.trace ++ outs } := by
  obtain ⟨v, r, p, outs, hw, hl⟩ := exec_leaves i s
  exact ⟨v, r, p, outs, hw, hl, Host.Outcome.next.inj (h.symm.trans (hl s.trace s.pending))⟩

/-- Everything a step that completes can do: nothing, answer ILLEGAL, or execute a command, the packet taken from the port. -/
theorem step_next {s t : State} (h : step s = .next t) :
    t = s ∨ ∃ ps, t = answerIllegal (s.setPending ps) ∨ ∃ i, exec i (s.setPending ps) = .next t := by
  rw [step] at h
  cases hf : fetch s with
  | idle =>
    rw [hf] at h
    exact .inl (Host.Outcome.next.inj h).symm
  | overlap =>
    rw [hf] at h
    cases h
  | illegal taken =>
    obtain ⟨ps, rfl⟩ := fetch_taken s taken (.inl hf)
    rw [hf] at h
    exact .inr ⟨ps, .inl (Host.Outcome.next.inj h).symm⟩
  | command i taken =>
    obtain ⟨ps, rfl⟩ := fetch_taken s taken (.inr ⟨i, hf⟩)
    rw [hf] at h
    exact .inr ⟨ps, .inr ⟨i, h⟩⟩

/-! ## The obligations -/

/-- Settles O8, by induction on the commands: the port gives back the first, and what it does is the same with only the rest
of the port still presented. -/
theorem runExecutesPresentedCommandsInOrder : Obligations.RunExecutesPresentedCommandsInOrder := by
  intro is
  induction is with
  | nil =>
    rintro s rest - rfl
    rfl
  | cons i is ih =>
    intro s rest hwf hp
    obtain ⟨v, r, p, outs, -, hl⟩ := exec_leaves i s
    let port := is.map (fun i => .packet (encode i)) ++ rest
    have hstep : step s = .next { s with
        crcAcc := v, reader := r, pm := p, trace := s.trace ++ outs, pending := port } :=
      (step_of_command s (encode i) port i hp (decode_encode i (hwf i List.mem_cons_self))).trans (hl s.trace port)
    rw [List.length_cons, run_succ _ _ _ hstep, execAll_cons_of_next (hl s.trace rest)]
    exact ih _ rest (fun j hj => hwf j (List.mem_cons_of_mem i hj)) rfl

/-- Settles O11: what is left in the units and handed over is found before the trace and the port are chosen. -/
theorem outcomeDoesNotReadTraceOrPending : Obligations.OutcomeDoesNotReadTraceOrPending := by
  intro i s t h
  obtain ⟨v, r, p, outs, -, hl, rfl⟩ := exec_next h
  exact ⟨outs, rfl, hl⟩

/-- Settles O15: a step takes a packet, and neither a command nor the answer to an illegal packet writes the capacities. -/
theorem capacitiesNeverChange : Obligations.CapacitiesNeverChange := by
  intro s t h
  obtain rfl | ⟨ps, rfl | ⟨i, he⟩⟩ := step_next h
  · rfl
  · rfl
  · obtain ⟨v, r, p, outs, -, -, rfl⟩ := exec_next he
    rfl

/-- Settles O16, by the cases of `MayWrite`: the one unit a case writes is the one its command is excluded from, and PM.TX
writes `LAST_SENT_ORDER` alone. -/
theorem eachRegisterHasItsWriters : Obligations.EachRegisterHasItsWriters := by
  intro i s t h
  obtain ⟨v, r, p, outs, hw, -, rfl⟩ := exec_next h
  cases hw with
  | nothing => exact ⟨fun _ _ => rfl, fun _ _ _ => rfl, fun _ _ _ => rfl, fun _ _ _ _ => ⟨rfl, rfl⟩⟩
  | crcInit | crcUpd | frRst | frUpd | pmRst | pmRx => simp
  | pmTx => simp

end Sys2Proof.Machine
end

section
/-! PROOFS. The memory family (spec 20_memory.md): commands that only read may be repeated, and CRC.INIT and FR.RST write what
a second execution writes again (R60). -/

namespace Sys2Proof.Machine

/-! ## Repeating a command -/

/-- Emptying an empty reader: `fr_reset` writes constants and keeps `FR_BUF` (R153). -/
@[simp] theorem frReset_frReset (r : Reader) : frReset (frReset r) = frReset r := rfl

/-- CRC.INIT writes a constant, so after it a second one only responds (R136). -/
theorem exec_crcInit_twice {s t u : State} (h : exec .crcInit s = .next t) (h' : exec .crcInit t = .next u) :
    u = { t with trace := u.trace } := by
  cases h
  cases h'
  rfl

/-- FR.RST leaves an empty reader, so after it a second one only responds (R156). -/
theorem exec_frRst_twice {s t u : State} (h : exec .frRst s = .next t) (h' : exec .frRst t = .next u) :
    u = { t with trace := u.trace } := by
  have ht : t.reader = frReset s.reader := by
    cases h
    rfl
  have hu : frReset t.reader = t.reader := by rw [ht, frReset_frReset]
  cases h'
  simp [respond, State.deliver, State.setReader, hu]

/-! ## The obligation -/

/-- Settles O17, by the cases of `MayWrite`: those that write a unit are of commands outside the list, and a command that
writes none starts again with only the trace changed, which does not decide what it hands over. -/
theorem readsChangeNothing : Obligations.ReadsChangeNothing := by
  refine ⟨fun i s t hi h => ?_, fun i s t u hi h h' => ?_⟩
  · obtain ⟨v, r, p, outs, hw, hl, rfl⟩ := exec_next h
    cases hw with
    | nothing => exact ⟨rfl, outs, rfl, hl (s.trace ++ outs) s.pending⟩
    | crcInit | crcUpd | frRst | frUpd | pmRst | pmRx | pmTx => simp at hi
  · obtain rfl | rfl := hi
    · exact exec_crcInit_twice h h'
    · exact exec_frRst_twice h h'

end Sys2Proof.Machine
end

section
/-! PROOFS. The encoding family (spec 30_encoding.md): the decoder reads back exactly what the encoder writes (R71 to R77),
every other packet is illegal by the list of R78 (R79), and an illegal packet is answered ILLEGAL. -/

namespace Sys2Proof

open Sys2Proof.Machine

/-! ## What a packet that decodes is -/

/-- The opcode byte of a command's packet (R77). -/
def Op.code (op : Op) : Byte :=
  match op with
  | .cobsEnc => 0x10
  | .cobsDec => 0x11
  | .crcInit => 0x20
  | .crcUpd => 0x21
  | .crcFin => 0x22
  | .crcTbl => 0x23
  | .frRst => 0x30
  | .frUpd => 0x31
  | .frStat => 0x32
  | .frGetd => 0x33
  | .frGet => 0x34
  | .pmRst => 0x40
  | .pmRx => 0x41
  | .pmTx => 0x42
  | .pmStat => 0x43

/-- The opcode map gives each opcode byte the command whose packets begin with it. -/
theorem opRow_code {code : Byte} {row : OpRow} (h : opRow code = some row) : code = row.op.code := by
  obtain ⟨hmem, rfl⟩ := opRow_some h
  have htable : ∀ r ∈ opTable, r.code = r.op.code := by decide
  exact htable row hmem

/-- A format N command that is read took no operand byte. -/
theorem encode_of_parseN {code : Byte} {i j : Instr} {rest : List Byte} (h : (parseN rest).map (fun _ => j) = .ok i)
    (hw : j.WellFormed) (he : encode j = [code]) : i.WellFormed ∧ encode i = code :: rest := by
  obtain ⟨u, hu, rfl⟩ := except_map_ok h
  rw [parseN_ok hu]
  exact ⟨hw, he⟩

/-- A format B command that is read took its one operand byte. -/
theorem encode_of_parseB {code : Byte} {f : Byte → Instr} {i : Instr} {rest : List Byte} (h : (parseB rest).map f = .ok i)
    (hf : ∀ b, (f b).WellFormed ∧ encode (f b) = [code, b]) : i.WellFormed ∧ encode i = code :: rest := by
  obtain ⟨b, hb, rfl⟩ := except_map_ok h
  rw [parseB_ok hb]
  exact hf b

/-- Operands that are read are the operand bytes of the command's packet. -/
theorem encode_of_decodeOperands {op : Op} {rest : List Byte} {i : Instr} (h : decodeOperands op rest = .ok i) :
    i.WellFormed ∧ encode i = op.code :: rest := by
  cases op with
  | crcInit | crcFin | frRst | frStat | frGetd | frGet | pmRst => exact encode_of_parseN h rfl rfl
  | crcUpd | crcTbl | frUpd | pmRx => exact encode_of_parseB h fun _ => ⟨rfl, rfl⟩
  | cobsEnc =>
    rw [decodeOperands] at h
    split at h
    · next d hd =>
      split at h
      · next hn =>
        obtain ⟨rfl, -⟩ := parseV_ok hd
        cases h
        exact ⟨decide_eq_true hn, rfl⟩
      · cases h
    · cases h
  | cobsDec =>
    obtain ⟨x, hx, rfl⟩ := except_map_ok h
    obtain ⟨rfl, hl⟩ := parseDV_ok hx
    exact ⟨decide_eq_true hl, rfl⟩
  | pmTx =>
    obtain ⟨x, hx, rfl⟩ := except_map_ok h
    obtain ⟨rfl, hl⟩ := parseTX_ok hx
    exact ⟨decide_eq_true hl, rfl⟩
  | pmStat =>
    rw [decodeOperands] at h
    split at h
    · next b hb =>
      split at h
      · next hi =>
        rw [parseB_ok hb]
        cases h
        exact ⟨decide_eq_true hi, rfl⟩
      · cases h
    · cases h

/-- A packet that decodes is the packet of a command that a packet can carry. -/
theorem encode_of_decode {p : List Byte} {i : Instr} (h : decode p = .ok i) : i.WellFormed ∧ encode i = p := by
  cases p with
  | nil => cases h
  | cons code rest =>
    rw [decode] at h
    split at h
    · cases h
    · next row hrow =>
      rw [opRow_code hrow]
      exact encode_of_decodeOperands h

/-! ## The length of a packet -/

/-- The packet of every command has the length R79 computes from its leading bytes. -/
theorem packetLength_encode (i : Instr) : Laws.Length.Statement i := by
  cases i with
  | cobsEnc data => exact Laws.Length.cobsEnc data
  | cobsDec final data => exact Laws.Length.cobsDec final data
  | pmTx id rep data => exact Laws.Length.pmTx id rep data
  | crcInit | crcUpd | crcFin | crcTbl | frRst | frUpd | frStat | frGetd | frGet | pmRst | pmRx | pmStat => exact fun _ => rfl

/-! ## The packets that R78 does not list -/

/-- A packet that is illegal by no case of R78 has a known opcode, the length of R79 and operands in range. -/
theorem illegalPacket_cons_eq_false (code : Byte) (rest : List Byte) :
    illegalPacket (code :: rest) = false ↔
      unknownOpcode code.toNat = false ∧
      rest.length + 1 = fixedPart code.toNat + vectorLength code.toNat (code :: rest) ∧
      (code = 0x11 → packetByte (code :: rest) 1 / 2 = 0) ∧
      (code = 0x10 → vectorLength code.toNat (code :: rest) ≤ 65277) ∧
      (code = 0x43 → packetByte (code :: rest) 1 ≤ 10) := by
  simp only [illegalPacket, Bool.or_eq_false_iff, Bool.and_eq_false_imp, decide_eq_false_iff_not, beq_iff_eq,
    List.length_cons, not_not, Nat.not_lt]
  constructor
  · rintro ⟨⟨⟨⟨⟨h1, -⟩, h2⟩, h3⟩, h4⟩, h5⟩
    exact ⟨h1, h2, h3, h4, h5⟩
  · rintro ⟨h1, h2, h3, h4, h5⟩
    exact ⟨⟨⟨⟨⟨h1, by omega⟩, h2⟩, h3⟩, h4⟩, h5⟩


/-- Every opcode byte that is not unknown is that of one of the fifteen commands (R77). -/
theorem exists_code_of_known (code : Byte) (h : unknownOpcode code.toNat = false) : ∃ op : Op, code = op.code := by
  have hall : ∀ c : Byte, unknownOpcode c.toNat = false → ∃ row ∈ opTable, c = row.op.code := by decide
  obtain ⟨row, -, he⟩ := hall code h
  exact ⟨row.op, he⟩

/-- The decoder selects a command by its opcode byte. -/
theorem decode_code (op : Op) (rest : List Byte) : decode (op.code :: rest) = decodeOperands op rest := by
  cases op <;> rfl

/-- Enough bytes for `k` operand bytes and a length field have the two length bytes after the `k`. -/
theorem exists_length_bytes {k : Nat} {r : List Byte} (h : k + 2 ≤ r.length) :
    ∃ pre hi lo data, pre.length = k ∧ r = pre ++ hi :: lo :: data := by
  induction k generalizing r with
  | zero =>
    match r, h with
    | hi :: lo :: data, _ => exact ⟨[], hi, lo, data, rfl, rfl⟩
  | succ k ih =>
    match r, h with
    | b :: r, h =>
      obtain ⟨pre, hi, lo, data, rfl, rfl⟩ := ih (Nat.le_of_succ_le_succ (by simpa using h))
      exact ⟨b :: pre, hi, lo, data, rfl, rfl⟩

/-- A vector of the length its two length bytes give is read. -/
theorem parseVector_of_length {hi lo : Byte} {data : List Byte} (h : data.length = hi.toNat * 256 + lo.toNat) :
    parseVector hi lo data = .ok data :=
  if_pos ((toNat_unbe16_pair hi lo).trans h.symm)

/-- Operand bytes that are illegal by no case of R78 are read. -/
theorem decodeOperands_of_legal {op : Op} {rest : List Byte} (h : illegalPacket (op.code :: rest) = false) :
    ∃ i, decodeOperands op rest = .ok i := by
  obtain ⟨-, hlen, hflag, hmax, hindex⟩ := (illegalPacket_cons_eq_false _ _).1 h
  cases op with
  | crcInit | crcFin | frRst | frStat | frGetd | frGet | pmRst =>
    obtain rfl : rest = [] := List.eq_nil_of_length_eq_zero (Nat.succ.inj hlen)
    exact ⟨_, rfl⟩
  | crcUpd | crcTbl | frUpd | pmRx =>
    obtain ⟨b, rfl⟩ := List.length_eq_one_iff.1 (Nat.succ.inj hlen)
    exact ⟨_, rfl⟩
  | pmStat =>
    obtain ⟨b, rfl⟩ := List.length_eq_one_iff.1 (Nat.succ.inj hlen)
    exact ⟨.pmStat b, if_pos (hindex rfl)⟩
  | cobsEnc =>
    have hlen : rest.length + 1 = 3 + vectorLength 0x10 (0x10 :: rest) := hlen
    obtain ⟨pre, hi, lo, data, hpre, rfl⟩ := exists_length_bytes (k := 0) (r := rest) (by omega)
    obtain rfl := List.eq_nil_of_length_eq_zero hpre
    have hn : data.length + 3 = 3 + (hi.toNat * 256 + lo.toNat) := hlen
    have hm : hi.toNat * 256 + lo.toNat ≤ 65277 := hmax rfl
    refine ⟨.cobsEnc data, ?_⟩
    rw [decodeOperands, List.nil_append, parseV, parseVector_of_length (by omega)]
    exact if_pos (show data.length ≤ 65277 by omega)
  | cobsDec =>
    have hlen : rest.length + 1 = 4 + vectorLength 0x11 (0x11 :: rest) := hlen
    obtain ⟨pre, hi, lo, data, hpre, rfl⟩ := exists_length_bytes (k := 1) (r := rest) (by omega)
    obtain ⟨flags, rfl⟩ := List.length_eq_one_iff.1 hpre
    have hn : data.length + 4 = 4 + (hi.toNat * 256 + lo.toNat) := hlen
    have hf : flags.toNat / 2 = 0 := hflag rfl
    have hz : flags.extractLsb' 1 7 = 0 := by
      apply BitVec.eq_of_toNat_eq
      rw [BitVec.extractLsb'_toNat, Nat.shiftRight_eq_div_pow, Nat.pow_one, hf]
      rfl
    exact ⟨.cobsDec (flags.getLsbD 0) data, by
      rw [decodeOperands, List.singleton_append, parseDV, if_pos hz, parseVector_of_length (by omega)]
      rfl⟩
  | pmTx =>
    have hlen : rest.length + 1 = 6 + vectorLength 0x42 (0x42 :: rest) := hlen
    obtain ⟨pre, hi, lo, data, hpre, rfl⟩ := exists_length_bytes (k := 3) (r := rest) (by omega)
    obtain ⟨idHi, idLo, rep, rfl⟩ := List.length_eq_three.1 hpre
    have hn : data.length + 6 = 6 + (hi.toNat * 256 + lo.toNat) := hlen
    refine ⟨.pmTx (unbe16 [idHi, idLo]) rep data, ?_⟩
    have hp := parseVector_of_length (hi := hi) (lo := lo) (data := data) (by omega)
    change ((parseVector hi lo data).map _).map _ = _
    rw [hp]
    rfl

/-- A packet that is illegal by no case of R78 decodes. -/
theorem decode_of_legal {p : List Byte} (h : illegalPacket p = false) : ∃ i, decode p = .ok i := by
  cases p with
  | nil => cases h
  | cons code rest =>
    obtain ⟨hknown, -⟩ := (illegalPacket_cons_eq_false _ _).1 h
    obtain ⟨op, rfl⟩ := exists_code_of_known code hknown
    rw [decode_code]
    exact decodeOperands_of_legal h

/-- The packet of a command that a packet can carry is illegal by no case of R78. -/
theorem illegalPacket_encode (i : Instr) (hw : i.WellFormed) : illegalPacket (encode i) = false := by
  cases i with
  | crcInit | crcUpd | crcFin | crcTbl | frRst | frUpd | frStat | frGetd | frGet | pmRst | pmRx => rfl
  | pmStat b => exact (illegalPacket_cons_eq_false _ _).2 ⟨rfl, rfl, nofun, nofun, fun _ => of_decide_eq_true hw⟩
  | cobsEnc data =>
    have h : data.length ≤ Config.nmax := of_decide_eq_true hw
    obtain ⟨hi, lo, e, hn⟩ := lengthField_bytes data.length (Nat.le_trans h (by decide))
    rw [encode, vectorField, e]
    refine (illegalPacket_cons_eq_false _ _).2 ⟨rfl, ?_, nofun, fun _ => hn.trans_le h, nofun⟩
    change data.length + 3 = 3 + (hi.toNat * 256 + lo.toNat)
    omega
  | cobsDec final data =>
    obtain ⟨hi, lo, e, hn⟩ := lengthField_bytes data.length (of_decide_eq_true hw)
    rw [encode, vectorField, e]
    refine (illegalPacket_cons_eq_false _ _).2 ⟨rfl, ?_, ?_, nofun, nofun⟩
    · change data.length + 4 = 4 + (hi.toNat * 256 + lo.toNat)
      omega
    · rintro -
      change (finalField final).toNat / 2 = 0
      cases final <;> rfl
  | pmTx id rep data =>
    obtain ⟨hi, lo, e, hn⟩ := lengthField_bytes data.length (of_decide_eq_true hw)
    rw [encode, vectorField, e]
    refine (illegalPacket_cons_eq_false _ _).2 ⟨rfl, ?_, nofun, nofun, nofun⟩
    change data.length + 6 = 6 + (hi.toNat * 256 + lo.toNat)
    omega

/-! ## The obligations about packets -/

/-- Settles O1: the decoder reads a command back from its packet, by the cases of `decode_encode`. -/
theorem decodeEncodeRoundTrip : Obligations.DecodeEncodeRoundTrip :=
  decode_encode

/-- Settles O2: each operand format accepts only what the encoder writes for the operands it reads. -/
theorem decodedPacketIsItsEncoding : Obligations.DecodedPacketIsItsEncoding :=
  fun _ _ h => encode_of_decode h

/-- Settles O3: a packet that decodes is an encoding, which no case of R78 covers and which has the length of R79; one that
does not decode is covered by a case, since otherwise its operands would be read. -/
theorem everyPacketIsOneCommandOrIllegal : Obligations.EveryPacketIsOneCommandOrIllegal := by
  intro p
  cases hd : decode p with
  | error e =>
    refine .inl ⟨?_, e, rfl⟩
    by_contra hi
    obtain ⟨i, hi⟩ := decode_of_legal (Bool.eq_false_iff.2 hi)
    cases hd.symm.trans hi
  | ok i =>
    obtain ⟨hw, rfl⟩ := encode_of_decode hd
    have hi := illegalPacket_encode i hw
    refine .inr ⟨hi, ?_⟩
    cases he : encode i with
    | nil =>
      rw [he] at hd
      cases hd
    | cons code rest =>
      rw [he] at hi
      obtain ⟨-, hlen, -⟩ := (illegalPacket_cons_eq_false code rest).1 hi
      exact ⟨code, rest, i, rfl, rfl, hw, he ▸ packetLength_encode i hw, hlen⟩

/-- Settles O4: the decoder evaluated on each packet. -/
theorem sampleEncodings : Obligations.SampleEncodings :=
  ⟨rfl, rfl, rfl, rfl, rfl, rfl, rfl, rfl, rfl⟩

/-- A packet that some case of R78 covers does not decode. -/
theorem decode_of_illegal {p : List Byte} (h : illegalPacket p = true) : ∃ e, decode p = .error e := by
  obtain ⟨-, he⟩ | ⟨hl, -⟩ := everyPacketIsOneCommandOrIllegal p
  · exact he
  · cases h.symm.trans hl

/-- Settles O6: an illegal packet does not decode, so the port answers it. -/
theorem illegalPacketIsAnsweredIllegal : Obligations.IllegalPacketIsAnsweredIllegal := by
  intro s p rest hp hi
  obtain ⟨e, hd⟩ := decode_of_illegal hi
  rw [step, fetch_of_illegal s p rest e hp hd]
  rfl

end Sys2Proof
end

section
/-! PROOFS. What a command answers (spec 30_encoding.md rules R80, R86): its events come from the Packet Manager, its response
is one, and a status other than OK leaves the state as it was. -/

namespace Sys2Proof.Machine

/-! ## Events and responses of a command -/

/-- The events a command may hand over: none, one RxPacket from PM.RX, pairs PrepareTx, TxBuffer from PM.TX (R86, R177). Tied
to `exec` by `exec_answers`. -/
inductive MayEmit : Instr → List Event → Prop
  | nothing (i : Instr) : MayEmit i []
  | dispatch (b : Byte) (payload : List Byte) (h : Header) : MayEmit (.pmRx b) [.rxPacket payload h]
  | frames (id : Half) (rep : Byte) (data frame : List Byte) (n : Nat) :
      MayEmit (.pmTx id rep data) (List.replicate n [.prepareTx, .txBuffer frame]).flatten

/-- The command completes with its events and then a response of status OK, and leaves the port as it is. -/
def AnswersOk (i : Instr) (s : State) : Prop :=
  ∃ (t : State) (evs : List Event) (body : List Byte), MayEmit i evs ∧ exec i s = .next (respond t .ok body) ∧
    t.trace = s.trace ++ evs.map .event ∧ t.pending = s.pending

/-- A command that only responds has no events. -/
theorem answersOk_of_quiet {i : Instr} {s : State} (t : State) (body : List Byte) (h : exec i s = .next (respond t .ok body))
    (ht : t.trace = s.trace) (hp : t.pending = s.pending) : AnswersOk i s :=
  ⟨t, [], body, .nothing i, h, by simp [ht], hp⟩

/-- PM.RX hands over what its attempt dispatches before its response (R181). -/
theorem pmRx_answersOk (b : Byte) (s : State) : AnswersOk (.pmRx b) s := by
  obtain ⟨r, p, outs, ho, he⟩ := rxByte_effect b s
  have hrx : rxByte s b = { s with reader := r, pm := p, trace := s.trace ++ outs } := he s.trace s.pending
  have hexec : exec (.pmRx b) s = .next (respond (rxByte s b) .ok []) := rfl
  obtain rfl | ⟨payload, h, rfl⟩ := ho
  · exact ⟨_, [], [], .nothing _, hexec, by rw [hrx]; rfl, by rw [hrx]⟩
  · exact ⟨_, _, [], .dispatch b payload h, hexec, by rw [hrx]; rfl, by rw [hrx]⟩

/-- The outputs of a send are its events in order (R177). -/
theorem txEvents_eq_map (n : Nat) (frame : List Byte) :
    txEvents n frame = ((List.replicate n [Event.prepareTx, .txBuffer frame]).flatten).map .event := by
  simp [txEvents_eq]

/-- PM.TX hands over the pairs of a send, or nothing where the frame does not fit (R175, R177). -/
theorem pmTx_answersOk (id : Half) (rep : Byte) (data : List Byte) (s : State) : AnswersOk (.pmTx id rep data) s := by
  have hexec : exec (.pmTx id rep data) s = .next (txPacket s id rep data) := rfl
  obtain hc | ⟨-, -, hc⟩ := txPacket_cases s id rep data
  · exact answersOk_of_quiet s _ (hexec.trans (congrArg _ hc)) rfl rfl
  · exact ⟨_, _, _, .frames id rep data _ rep.toNat, hexec.trans (congrArg _ hc),
      congrArg (s.trace ++ ·) (txEvents_eq_map _ _), rfl⟩

/-- `SR[0]` to `SR[10]` are all there is at an index without a status register (R27). -/
theorem lt_of_statusReg_eq_none {s : State} {n : Nat} (h : statusReg s n = none) : 10 < n := by
  by_contra hn
  have hn : n ≤ 10 := Nat.not_lt.1 hn
  interval_cases n <;> cases h

/-- Everything a command can answer: OK with its events; PRECOND, for FR.GET without a match; ILLEGAL, for a command that no
packet carries. The last two change nothing (R80, R160, R188). -/
theorem exec_answers (i : Instr) (s : State) :
    ((i = .frGet → s.reader.m = 1) ∧ AnswersOk i s) ∨
    ((i = .frGet ∧ s.reader.m ≠ 1) ∧ exec i s = .next (respond s .precond [])) ∨
    (¬ i.WellFormed ∧ exec i s = .next (respond s .illegal [])) := by
  cases i with
  | cobsEnc | cobsDec | crcInit | crcUpd | crcFin | crcTbl | frRst | frUpd | frStat | frGetd | pmRst =>
    exact .inl ⟨nofun, answersOk_of_quiet _ _ rfl rfl rfl⟩
  | frGet =>
    cases hm : haveMatch s.reader with
    | true =>
      exact .inl ⟨fun _ => (haveMatch_eq_true _).1 hm, answersOk_of_quiet s _ (congrArg _ (if_pos hm)) rfl rfl⟩
    | false => exact .inr (.inl ⟨⟨rfl, (haveMatch_eq_false _).1 hm⟩, congrArg _ (if_neg (by simp [hm]))⟩)
  | pmRx b => exact .inl ⟨nofun, pmRx_answersOk b s⟩
  | pmTx id rep data => exact .inl ⟨nofun, pmTx_answersOk id rep data s⟩
  | pmStat b =>
    cases hr : statusReg s b.toNat with
    | some v => exact .inl ⟨nofun, answersOk_of_quiet s (be32 v) (by rw [exec, execPmStat, hr]) rfl rfl⟩
    | none =>
      refine .inr (.inr ⟨fun hw => ?_, by rw [exec, execPmStat, hr]⟩)
      have hb : b.toNat ≤ 10 := of_decide_eq_true hw
      exact Nat.not_lt.2 hb (lt_of_statusReg_eq_none hr)

/-- What a completed command has handed over: events it may emit, then one response. -/
theorem trace_of_exec {i : Instr} {s t : State} (h : exec i s = .next t) :
    t.pending = s.pending ∧
      ∃ evs r, MayEmit i evs ∧ t.trace = s.trace ++ evs.map .event ++ [.response r] := by
  obtain ⟨-, u, evs, body, hm, he, ht, hp⟩ | ⟨-, he⟩ | ⟨-, he⟩ := exec_answers i s
  · obtain rfl := Host.Outcome.next.inj (h.symm.trans he)
    exact ⟨hp, evs, _, hm, by rw [respond_trace, ht]⟩
  · obtain rfl := Host.Outcome.next.inj (h.symm.trans he)
    exact ⟨rfl, [], [statusCode .precond], .nothing i, by simp⟩
  · obtain rfl := Host.Outcome.next.inj (h.symm.trans he)
    exact ⟨rfl, [], [statusCode .illegal], .nothing i, by simp⟩

/-! ## The obligations about answers -/

/-- Settles O9, by the three answers of `exec_answers`. -/
theorem everyCommandAnswersOnce : Obligations.EveryCommandAnswersOnce := by
  intro i s
  obtain ⟨hg, t, evs, body, -, he, ht, hp⟩ | ⟨hg, he⟩ | ⟨hw, he⟩ := exec_answers i s
  · refine ⟨_, evs, statusCode .ok, body, he, by rw [respond_trace, ht], hp, .inl rfl, nofun, ⟨nofun, ?_⟩, ?_⟩
    · rintro ⟨rfl, hm⟩
      exact absurd (hg rfl) hm
    · exact fun h => absurd rfl h
  · exact ⟨_, [], statusCode .precond, [], he, by simp, rfl, .inr (.inr rfl), nofun, ⟨fun _ => hg, fun _ => rfl⟩,
      fun _ => ⟨rfl, rfl, rfl⟩⟩
  · refine ⟨_, [], statusCode .illegal, [], he, by simp, rfl, .inr (.inl rfl), fun _ => hw, ⟨nofun, ?_⟩,
      fun _ => ⟨rfl, rfl, rfl⟩⟩
    rintro ⟨rfl, -⟩
    exact absurd rfl hw

/-- Settles O10: the events before the response are those of `MayEmit`, whose cases name their command. -/
theorem eventsComeOnlyFromThePacketManager : Obligations.EventsComeOnlyFromThePacketManager := by
  intro i s t evs r h ht
  obtain ⟨hp, evs', r', hm, ht'⟩ := trace_of_exec h
  have he : evs = evs' := by
    have hmap : evs.map Output.event = evs'.map .event := by
      have := ht.symm.trans ht'
      rw [List.append_assoc, List.append_assoc, List.append_cancel_left_eq] at this
      exact (List.append_inj' this rfl).1
    exact List.map_injective_iff.2 (fun _ _ => Output.event.inj) hmap
  subst he
  refine ⟨hp, ?_⟩
  cases hm with
  | nothing => simp
  | dispatch b payload h => simp
  | frames id rep data frame n => simp

end Sys2Proof.Machine
end

section
/-! PROOFS. Frames from end to end (spec 30_encoding.md rule R84; 40_cobs.md rule R108; 43_packet_manager.md rules R171 to R173,
R181 to R185): an encoding has no zero byte and decodes back, a built region parses back, and its frame is received. -/

namespace Sys2Proof.Machine

/-! ## Encodings -/

/-- The encoding of a run of at most 253 bytes that ends the input. -/
theorem enc_last_run (run : List Byte) (hz : ∀ b ∈ run, b ≠ 0x00) (hl : run.length ≤ 253) : enc run = cobsBlock run := by
  have h := encLoop_literals run [] [] hz (by simpa using hl)
  rw [List.append_nil, List.nil_append] at h
  rw [enc, h, encLoop]

/-- The encoding of a run of at most 253 bytes before a zero. -/
theorem enc_run_zero (run rest : List Byte) (hz : ∀ b ∈ run, b ≠ 0x00) (hl : run.length ≤ 253) :
    enc (run ++ 0x00 :: rest) = cobsBlock run ++ enc rest := by
  rw [enc, encLoop_literals run [] _ hz (by simpa using hl), List.nil_append, encLoop, if_pos rfl, enc]

/-- The encoding of a full run and what follows it. -/
theorem enc_full_run (run rest : List Byte) (hz : ∀ b ∈ run, b ≠ 0x00) (hl : run.length = 254) :
    enc (run ++ rest) = cobsBlock run ++ enc rest :=
  encLoop_full_run run rest hz hl

/-- A byte string is cut into runs from the front: to prove a claim about every byte string, prove it for a last run, for a run
and a zero before a string it holds of, and for a full run before such a string. -/
theorem run_induction {P : List Byte → Prop}
    (last : ∀ run, (∀ b ∈ run, b ≠ 0x00) → run.length ≤ 253 → P run)
    (zero : ∀ run rest, (∀ b ∈ run, b ≠ 0x00) → run.length ≤ 253 → P rest → P (run ++ 0x00 :: rest))
    (full : ∀ run rest, (∀ b ∈ run, b ≠ 0x00) → run.length = 254 → P rest → P (run ++ rest)) (bytes : List Byte) :
    P bytes := by
  induction hn : bytes.length using Nat.strong_induction_on generalizing bytes with
  | _ n ih =>
    subst hn
    obtain ⟨run, hz, ⟨hl, rfl⟩ | ⟨rest, hl, rfl⟩ | ⟨rest, hl, rfl⟩⟩ := run_cases bytes
    · exact last _ hz hl
    · exact zero run rest hz hl (ih _ (by simp; omega) rest rfl)
    · exact full run rest hz hl (ih _ (by simp; omega) rest rfl)

/-- A block of a run that fits one has no zero byte. -/
theorem zero_notMem_cobsBlock (run : List Byte) (hz : ∀ b ∈ run, b ≠ 0x00) (hl : run.length ≤ 254) :
    0x00 ∉ cobsBlock run := by
  intro h
  obtain h | h := List.mem_cons.1 h
  · exact (marker_of_run hl).2.1 h.symm
  · exact hz _ h rfl

/-- An encoding has no zero byte (R102). -/
theorem zero_notMem_enc (bytes : List Byte) : 0x00 ∉ enc bytes := by
  induction bytes using run_induction with
  | last run hz hl =>
    rw [enc_last_run run hz hl]
    exact zero_notMem_cobsBlock run hz (by omega)
  | zero run rest hz hl ih =>
    rw [enc_run_zero run rest hz hl]
    exact List.not_mem_append (zero_notMem_cobsBlock run hz (by omega)) ih
  | full run rest hz hl ih =>
    rw [enc_full_run run rest hz hl]
    exact List.not_mem_append (zero_notMem_cobsBlock run hz (by omega)) ih

/-- An encoding is never empty. -/
theorem enc_ne_nil (bytes : List Byte) : enc bytes ≠ [] :=
  List.ne_nil_of_length_pos (Nat.lt_of_lt_of_le (Nat.succ_pos _) (encLoop_length_ge bytes []))

/-- After a short block, an encoding decodes as the zero that the block stands for and then as by itself (R105): its first
byte is a length byte. -/
theorem decLoop_shortEnd_enc (f : Bool) (bytes tail : List Byte) :
    decLoop f .shortEnd (enc bytes ++ tail) = consDecoded 0x00 (dec (enc bytes ++ tail) f) := by
  cases he : enc bytes with
  | nil => exact absurd he (enc_ne_nil bytes)
  | cons marker run =>
    have hm : marker ≠ 0x00 := fun h => zero_notMem_enc bytes (by simp [he, h])
    rw [List.cons_append, dec, decLoop, if_neg hm, decLoop, if_neg hm]

/-- The decoder reads one block of an encoding and goes on with what stands behind it. -/
theorem dec_cobsBlock (f : Bool) (run rest : List Byte) (hz : ∀ b ∈ run, b ≠ 0x00) (hl : run.length ≤ 254) :
    dec (cobsBlock run ++ rest) f =
      ((decLoop f (phaseFor 0 (run.length = 254)) rest).1, run ++ (decLoop f (phaseFor 0 (run.length = 254)) rest).2) := by
  obtain ⟨h1, h2, h3⟩ := marker_of_run hl
  have h := dec_block f _ run rest h2 hz h1.symm
  rw [h3] at h
  exact h

/-- An encoding decodes to what it encodes, with anything behind it at which the decoder may stop after a short block (R108). -/
theorem dec_enc_append (f : Bool) (bytes tail : List Byte) (ht : decLoop f .shortEnd tail = (.ok, [])) :
    dec (enc bytes ++ tail) f = (.ok, bytes) := by
  induction bytes using run_induction with
  | last run hz hl =>
    rw [enc_last_run run hz hl, dec_cobsBlock f run tail hz (by omega), decide_eq_false (by omega), phaseFor_zero_short, ht]
    simp
  | zero run rest hz hl ih =>
    rw [enc_run_zero run rest hz hl, List.append_assoc, dec_cobsBlock f run _ hz (by omega), decide_eq_false (by omega),
      phaseFor_zero_short, decLoop_shortEnd_enc, ih]
    rfl
  | full run rest hz hl ih =>
    rw [enc_full_run run rest hz hl, List.append_assoc, dec_cobsBlock f run _ hz (by omega), decide_eq_true hl,
      phaseFor_zero_full, ← dec, ih]

/-! ## Built regions -/

theorem length_headerBytes (h : Header) : (headerBytes h).length = 12 := rfl

/-- A header in front of a region is read back (R173). -/
theorem parseHeader_headerBytes (h : Header) (payload : List Byte) : parseHeader (headerBytes h ++ payload) = h := by
  have hc : (headerBytes h ++ payload).take 4 = be32 h.crc := rfl
  have hl : ((headerBytes h ++ payload).drop 4).take 2 = be16 h.len := rfl
  have hi : ((headerBytes h ++ payload).drop 6).take 2 = be16 h.id := rfl
  have ho : ((headerBytes h ++ payload).drop 8).take 4 = be32 h.order := rfl
  rw [parseHeader, hc, hl, hi, ho, unbe32_be32, unbe16_be16, unbe16_be16, unbe32_be32]

/-- What stands behind a header is the payload (R173). -/
theorem regionPayload_headerBytes (h : Header) (payload : List Byte) : regionPayload (headerBytes h ++ payload) = payload :=
  List.drop_left' (length_headerBytes h)

/-- The CRC of a region does not depend on its `crc` field: it is taken with that field zero (R171). -/
theorem frameCrc_headerBytes (h : Header) (payload : List Byte) :
    frameCrc (headerBytes h ++ payload) = crc32 (headerBytes { h with crc := 0 } ++ payload) := by
  have hd : (headerBytes h ++ payload).drop 4 = be16 h.len ++ be16 h.id ++ be32 h.order ++ payload := rfl
  have hz : be32 0 = [0x00, 0x00, 0x00, 0x00] := by decide
  rw [frameCrc, hd, headerBytes, hz]
  simp only [List.append_assoc]

/-- A built region is its header, which carries the region's CRC, and the payload (R172). -/
theorem buildRegion_eq (id : Half) (payload : List Byte) (order : Word) :
    buildRegion id payload order =
      headerBytes (txHeader (frameCrc (buildRegion id payload order)) id payload order) ++ payload := by
  rw [buildRegion, frameCrc_headerBytes]
  rfl

/-- The header a built region parses to (R173). -/
theorem parseHeader_buildRegion (id : Half) (payload : List Byte) (order : Word) :
    parseHeader (buildRegion id payload order) = txHeader (frameCrc (buildRegion id payload order)) id payload order := by
  rw [buildRegion_eq, parseHeader_headerBytes, ← buildRegion_eq]

/-- The payload a built region parses to (R173). -/
theorem regionPayload_buildRegion (id : Half) (payload : List Byte) (order : Word) :
    regionPayload (buildRegion id payload order) = payload := by
  rw [buildRegion_eq, regionPayload_headerBytes]

/-- A region built for a payload that a packet can carry passes the checks of an attempt (R182). -/
theorem validRegion_buildRegion (id : Half) (payload : List Byte) (order : Word) (h : payload.length ≤ 65535) :
    ValidRegion (buildRegion id payload order) := by
  refine ⟨?_, ?_, ?_⟩
  · rw [buildRegion_eq, List.length_append, length_headerBytes]
    exact Nat.le_add_right _ _
  · rw [parseHeader_buildRegion, txHeader]
  · rw [parseHeader_buildRegion, regionPayload_buildRegion, txHeader, BitVec.toNat_ofNat, Nat.mod_eq_of_lt (by omega)]

/-- Settles O43: a built region is its header and payload, and an encoding has no zero byte, so the terminator is the one. -/
theorem frameHasOneZeroItsLast : Obligations.FrameHasOneZeroItsLast := by
  intro id payload order
  refine ⟨congrArg (fun r => enc r ++ [0x00]) (buildRegion_eq id payload order), ?_⟩
  rw [frameOf, List.count_append, List.count_eq_zero_of_not_mem (zero_notMem_enc _)]
  rfl

/-! ## An accepted frame -/

/-- Where no overrun is counted there is nothing to fold (R183). -/
theorem foldOverruns_of_zero (s : State) (h : s.pm.stats.currentOverruns = 0) : foldOverruns s = s := by
  obtain ⟨caps, acc, reader, ⟨sent, received, stats⟩, pending, trace⟩ := s
  obtain ⟨current⟩ := stats
  obtain rfl : current = 0 := h
  simp [foldOverruns, State.setStats]

/-- A valid region passes to the classification (sub-steps c to g of R182). -/
theorem checkRegion_of_valid (s : State) (region : List Byte) (hv : ValidRegion region) :
    checkRegion s region = classify s (parseHeader region) (regionPayload region) := by
  obtain ⟨hlen, hcrc, hpayload⟩ := hv
  rw [checkRegion, if_neg (show ¬ region.length < Config.hdrSize from Nat.not_lt.2 hlen)]
  simp only [hcrc, hpayload, ne_eq, not_true_eq_false, if_false]

/-- A header of a higher order is accepted (R185). -/
theorem classify_of_gt (s : State) (h : Header) (payload : List Byte) (hlt : s.pm.lastReceivedOrder.toNat < h.order.toNat) :
    classify s h payload = acceptPacket s h payload := by
  have hne : h.order ≠ s.pm.lastReceivedOrder := fun he => by rw [he] at hlt; omega
  rw [classify, if_neg hne, if_neg (Nat.not_lt.2 hlt.le)]

/-- An attempt on a matched span that decodes to a valid region of a higher order dispatches it (R185). -/
theorem rxByte_of_accepted (s : State) (b : Byte) (x region : List Byte) (h : CoreInv s) (ha : AttemptOn s b x)
    (hd : dec x true = (.ok, region)) (hv : ValidRegion region)
    (hlt : s.pm.lastReceivedOrder.toNat < (parseHeader region).order.toNat) :
    ∃ r, HoldsOnly r b ∧ rxByte s b = (acceptPacket s (parseHeader region) (regionPayload region)).setReader r := by
  obtain ⟨r, hr, he⟩ := rxByte_of_attempt s b x h ha
  obtain ⟨-, -, -, h0⟩ := h
  refine ⟨r, hr, ?_⟩
  rw [he, hd, if_pos rfl, checkRegion_of_valid s region hv, classify_of_gt s _ _ hlt]
  exact congrArg (State.setReader · r) (foldOverruns_of_zero _ h0)

/-- The gap between a higher order and the last one, as the subtraction on 32 bits gives it (R185). -/
theorem order_gap {order last : Word} (h : last.toNat < order.toNat) :
    order - 1 - last = BitVec.ofNat 32 (order.toNat - 1 - last.toNat) := by
  bv_omega

/-! ## Feeding a frame -/

/-- The reader holds the bytes `xs` without a match, and meets its invariants (R34). -/
structure Holds (c : Capacities) (r : Reader) (xs : List Byte) : Prop where
  storage : StorageInv c r
  inv : ReaderInv c r
  unmatched : r.m = 0
  span : spanWith r = xs

/-- `FR_LEN` is the number of bytes held. -/
theorem Holds.length_eq {c : Capacities} {r : Reader} {xs : List Byte} (h : Holds c r xs) : r.len = xs.length := by
  rw [← h.span, spanWith, length_memRead]

/-- A non-zero byte for which there is room is taken into the span. -/
theorem Holds.append {c : Capacities} {r : Reader} {xs : List Byte} (h : Holds c r xs) {b : Byte} (hb : b ≠ 0x00)
    (hl : xs.length < c.rxcap) : Holds c (frAppend r b) (xs ++ [b]) := by
  rw [← h.length_eq] at hl
  exact {
    storage := storageInv_frAppend c r b h.storage hl
    inv := readerInv_frAppend c r b h.storage h.inv hl h.unmatched
    unmatched := by rw [frAppend_m, if_neg hb, h.unmatched]
    span := by rw [spanWith_frAppend r b h.storage.1, h.span] }

/-- Non-zero bytes that do not fill the reader are taken one by one, each answered OK, and nothing else happens (R181). -/
theorem execAll_pmRxs_accumulates (xs ys : List Byte) (s : State) (h : Holds s.caps s.reader ys) (hz : 0x00 ∉ xs)
    (hl : ys.length + xs.length < s.caps.rxcap) :
    ∃ r, Holds s.caps r (ys ++ xs) ∧
      execAll (pseudoPmRxs xs) s =
        .next ((s.setReader r).deliver (List.replicate xs.length (.response [0x00]))) := by
  induction xs generalizing ys s with
  | nil => exact ⟨s.reader, by simpa using h, congrArg _ (State.deliver_nil s).symm⟩
  | cons b xs ih =>
    rw [List.length_cons] at hl
    obtain ⟨hb, hz⟩ := not_or.1 (List.mem_cons.not.1 hz)
    have hb : b ≠ 0x00 := Ne.symm hb
    have hacc : Accumulates s b := ⟨h.unmatched, by rw [h.length_eq]; omega, hb⟩
    have hexec : exec (.pmRx b) s = .next (respond (s.setReader (frAppend s.reader b)) .ok []) :=
      congrArg (fun t => Host.Outcome.next (respond t .ok [])) (rxByte_of_accumulates s b hacc)
    obtain ⟨r, hr, he⟩ := ih (ys ++ [b]) (respond (s.setReader (frAppend s.reader b)) .ok []) (h.append hb (by omega)) hz
      (by simpa using by omega)
    refine ⟨r, by simpa using hr, (execAll_cons_of_next hexec).trans (he.trans (congrArg _ ?_))⟩
    exact State.deliver_deliver (s.setReader r) [.response [0x00]] _

/-- The frame of a valid region of a higher order, fed to an empty reader that it fits: the bytes of the encoding accumulate, and
the terminator starts the one attempt, on a span that decodes to the region. -/
theorem execAll_frame_accepted (s : State) (region : List Byte) (h : CoreInv s) (hlen : s.reader.len = 0) (hm : s.reader.m = 0)
    (hv : ValidRegion region) (hfit : (frameOf region).length ≤ s.caps.rxcap)
    (hlt : s.pm.lastReceivedOrder.toNat < (parseHeader region).order.toNat) :
    ∃ q, HoldsOnly q 0x00 ∧
      execAll (pseudoPmRxs (frameOf region)) s =
        .next (respond ((acceptPacket (s.deliver (List.replicate (enc region).length (.response [0x00])))
          (parseHeader region) (regionPayload region)).setReader q) .ok []) := by
  obtain ⟨hcaps, hs, hr, hover⟩ := h
  have hroom : (enc region).length < s.caps.rxcap := by simpa [frameOf] using hfit
  have hempty : Holds s.caps s.reader [] := ⟨hs, hr, hm, by rw [spanWith, hlen, memRead]⟩
  obtain ⟨r, hholds, hfeed⟩ := execAll_pmRxs_accumulates (enc region) [] s hempty
    (zero_notMem_enc region) (by simpa using hroom)
  let fed := (s.setReader r).deliver (List.replicate (enc region).length (.response [0x00]))
  have hrlen : r.len < s.caps.rxcap := hholds.length_eq ▸ hroom
  have hattempt : AttemptOn fed 0x00 (enc region ++ [0x00]) :=
    .inr ⟨hholds.unmatched, hrlen, rfl, congrArg (· ++ [0x00]) hholds.span.symm⟩
  obtain ⟨q, hq, he⟩ := rxByte_of_accepted fed 0x00 _ region ⟨hcaps, hholds.storage, hholds.inv, hover⟩
    hattempt (dec_enc_append true region [0x00] rfl) hv hlt
  refine ⟨q, hq, ?_⟩
  have hlast : exec (.pmRx 0x00) fed = .next (respond (rxByte fed 0x00) .ok []) := rfl
  rw [frameOf, pseudoPmRxs, List.map_append]
  refine (execAll_append_of_next hfeed).trans ((execAll_cons_of_next hlast).trans ?_)
  rw [he]
  rfl

/-- Settles O58: a built region is valid, and its frame carries its header and payload. -/
theorem transmittedFrameIsReceived : Obligations.TransmittedFrameIsReceived := by
  intro s id payload order h hlen hm hp hfit hlt
  have hh := parseHeader_buildRegion id payload order
  obtain ⟨q, hq, he⟩ := execAll_frame_accepted s (buildRegion id payload order) h hlen hm
    (validRegion_buildRegion id payload order hp) hfit (by rw [hh]; exact hlt)
  rw [hh, regionPayload_buildRegion] at he
  refine ⟨_, he, hq, rfl, ?_, ?_⟩
  · rw [← order_gap hlt]
    rfl
  · simp [acceptPacket, frameOf, txHeader, statusCode]

end Sys2Proof.Machine
end

section
/-! PROOFS. The COBS Codec (spec 40_cobs.md): an encoding is a sequence of blocks (R100 to R102), the decoder reads block by block
(R105), it accepts what the encoder writes (R108) and, of the zero-free strings, nothing else (R109, R110); the answers of COBS.ENC
and COBS.DEC (R103, R107). -/

namespace Sys2Proof.Machine

/-! ## Round trip and encoder -/

/-- Settles O20: the decoder may stop at the end of a final input and at a terminator. -/
theorem cobsRoundTrip : Obligations.CobsRoundTrip := by
  intro bytes
  have hfinal := dec_enc_append true bytes [] rfl
  rw [List.append_nil] at hfinal
  exact ⟨hfinal, fun f => dec_enc_append f bytes [0x00] rfl, zero_notMem_enc bytes⟩

/-- Settles O22: the three boundaries of the encoder. -/
theorem encoderBlockRules : Obligations.EncoderBlockRules := by
  intro run hz
  refine ⟨fun hl rest => enc_run_zero run rest hz hl, fun hl rest => ?_, fun hl => enc_last_run run hz hl⟩
  rw [enc_full_run run rest hz hl, cobsBlock, hl]
  rfl

/-! ## An encoding as a sequence of blocks -/

/-- What a block that is not the last stands for: its run, and after a short run one zero (R82, R100). -/
def runText (run : List Byte) : List Byte :=
  if run.length = 254 then run else run ++ [0x00]

theorem runText_of_full {run : List Byte} (h : run.length = 254) : runText run = run := if_pos h

theorem runText_of_short {run : List Byte} (h : run.length ≠ 254) : runText run = run ++ [0x00] := if_neg h

/-- The runs `runs` and `last` are those of the blocks of the encoding of `bytes` (R82, R100). -/
structure IsCutInto (bytes : List Byte) (runs : List (List Byte)) (last : List Byte) : Prop where
  enc_eq : enc bytes = (runs ++ [last]).flatMap cobsBlock
  nonzero : ∀ r ∈ runs ++ [last], ∀ b ∈ r, b ≠ 0x00
  fits : ∀ r ∈ runs, r.length ≤ 254
  short : last.length ≤ 253
  text : bytes = runs.flatMap runText ++ last

/-- One more block in front. -/
theorem IsCutInto.cons {bytes last run : List Byte} {runs : List (List Byte)} (h : IsCutInto bytes runs last)
    (he : enc (runText run ++ bytes) = cobsBlock run ++ enc bytes) (hz : ∀ b ∈ run, b ≠ 0x00) (hl : run.length ≤ 254) :
    IsCutInto (runText run ++ bytes) (run :: runs) last where
  enc_eq := by rw [he, h.enc_eq, List.cons_append, List.flatMap_cons]
  nonzero := List.forall_mem_cons.2 ⟨hz, h.nonzero⟩
  fits := List.forall_mem_cons.2 ⟨hl, h.fits⟩
  short := h.short
  text := by rw [List.flatMap_cons, List.append_assoc, ← h.text]

/-- Every byte string is cut into runs. -/
theorem exists_isCutInto (bytes : List Byte) : ∃ runs last, IsCutInto bytes runs last := by
  induction bytes using run_induction with
  | last run hz hl =>
    exact ⟨[], run, by simpa using enc_last_run run hz hl, by simpa using hz, nofun, hl, rfl⟩
  | zero run rest hz hl ih =>
    obtain ⟨runs, last, h⟩ := ih
    have ht : runText run ++ rest = run ++ 0x00 :: rest := by rw [runText_of_short (by omega), List.append_assoc]; rfl
    have hcut := h.cons (by rw [ht, enc_run_zero run rest hz hl]) hz (by omega)
    exact ⟨run :: runs, last, by rwa [ht] at hcut⟩
  | full run rest hz hl ih =>
    obtain ⟨runs, last, h⟩ := ih
    have ht : runText run = run := runText_of_full hl
    have hcut := h.cons (by rw [ht, enc_full_run run rest hz hl]) hz hl.le
    exact ⟨run :: runs, last, by rwa [ht] at hcut⟩

/-- A block is as long as what it stands for, and one longer when it is full (R102). -/
theorem length_flatMap_cobsBlock (runs : List (List Byte)) :
    (runs.flatMap cobsBlock).length = (runs.flatMap runText).length + runs.countP (fun r => r.length == 254) := by
  induction runs with
  | nil => rfl
  | cons run runs ih =>
    have hb : (cobsBlock run).length = run.length + 1 := rfl
    rw [List.flatMap_cons, List.length_append, List.flatMap_cons, List.length_append, ih, hb]
    by_cases h : run.length = 254
    · rw [List.countP_cons_of_pos (by simpa using h), runText_of_full h]
      omega
    · rw [List.countP_cons_of_neg (by simpa using h), runText_of_short h, List.length_append, List.length_singleton]
      omega

/-- Full blocks stand for 254 bytes each (R102). -/
theorem countP_full_le (runs : List (List Byte)) :
    254 * runs.countP (fun r => r.length == 254) ≤ (runs.flatMap runText).length := by
  induction runs with
  | nil => exact Nat.le_refl 0
  | cons run runs ih =>
    rw [List.flatMap_cons, List.length_append]
    by_cases h : run.length = 254
    · rw [List.countP_cons_of_pos (by simpa using h), runText_of_full h, h]
      omega
    · rw [List.countP_cons_of_neg (by simpa using h)]
      omega

/-- Settles O21, by the runs of `exists_isCutInto`. -/
theorem encodingIsABlockSequence : Obligations.EncodingIsABlockSequence := by
  refine ⟨rfl, fun bytes => ?_⟩
  obtain ⟨runs, last, h⟩ := exists_isCutInto bytes
  have hn : bytes.length = (runs.flatMap runText).length + last.length := by
    rw [← List.length_append, ← h.text]
  have hb : (enc bytes).length = (runs.flatMap cobsBlock).length + (last.length + 1) := by
    rw [h.enc_eq, List.flatMap_append, List.length_append, List.flatMap_singleton]
    rfl
  have hlen := length_flatMap_cobsBlock runs
  have hfull := countP_full_le runs
  exact ⟨runs, last, h.enc_eq, h.nonzero, h.fits, h.short, h.text, by omega, by omega, zero_notMem_enc bytes⟩

/-! ## The decoder, block by block -/

/-- Inside a run the decoder takes the literals there are and then needs one more (R105). -/
theorem dec_cut_block (f : Bool) {marker : Byte} {run : List Byte} (rest : List Byte) (hm : marker ≠ 0x00)
    (hz : ∀ b ∈ run, b ≠ 0x00) (hl : run.length < marker.toNat - 1) :
    ∃ more full, dec (marker :: (run ++ rest)) f =
      ((decLoop f (.literal more full) rest).1, run ++ (decLoop f (.literal more full) rest).2) := by
  obtain ⟨more, hmore⟩ := Nat.exists_eq_add_of_lt hl
  rw [Nat.add_assoc] at hmore
  refine ⟨more, marker == 0xFF, ?_⟩
  rw [dec, decLoop, if_neg hm, openBlock, hmore]
  exact decLoop_literals f _ run rest (more + 1) hz

/-- An input that ends inside a run (R105). -/
theorem dec_cut_end (f : Bool) {marker : Byte} {run : List Byte} (hm : marker ≠ 0x00) (hz : ∀ b ∈ run, b ≠ 0x00)
    (hl : run.length < marker.toNat - 1) : dec (marker :: run) f = (.tooShort, run) := by
  obtain ⟨more, full, h⟩ := dec_cut_block f [] hm hz hl
  simpa [decLoop] using h

/-- A zero inside a run (R105). -/
theorem dec_cut_zero (f : Bool) {marker : Byte} {run : List Byte} (rest : List Byte) (hm : marker ≠ 0x00)
    (hz : ∀ b ∈ run, b ≠ 0x00) (hl : run.length < marker.toNat - 1) :
    dec (marker :: (run ++ 0x00 :: rest)) f = (.unexpectedZero, run) := by
  obtain ⟨more, full, h⟩ := dec_cut_block f (0x00 :: rest) hm hz hl
  simpa [decLoop] using h

/-- After a full block comes a length byte (R105). -/
theorem dec_full_block (f : Bool) {run : List Byte} (rest : List Byte) (hz : ∀ b ∈ run, b ≠ 0x00) (hl : run.length = 254) :
    dec (cobsBlock run ++ rest) f = ((dec rest f).1, run ++ (dec rest f).2) := by
  rw [dec_cobsBlock f run rest hz hl.le, decide_eq_true hl, phaseFor_zero_full, ← dec]

/-- After a short block the decoder looks at what stands behind it (R105). -/
theorem dec_short_block (f : Bool) {run : List Byte} (rest : List Byte) (hz : ∀ b ∈ run, b ≠ 0x00) (hl : run.length ≤ 253) :
    dec (cobsBlock run ++ rest) f = ((decLoop f .shortEnd rest).1, run ++ (decLoop f .shortEnd rest).2) := by
  rw [dec_cobsBlock f run rest hz (by omega), decide_eq_false (by omega), phaseFor_zero_short]

/-- A short block at the end of the input (R105). -/
theorem dec_short_end (f : Bool) {run : List Byte} (hz : ∀ b ∈ run, b ≠ 0x00) (hl : run.length ≤ 253) :
    dec (cobsBlock run) f = (if f then .ok else .zeroMissing, run) := by
  have h := dec_short_block f [] hz hl
  cases f <;> simpa [decLoop] using h

/-- A short block before a terminator (R105). -/
theorem dec_short_zero (f : Bool) {run : List Byte} (rest : List Byte) (hz : ∀ b ∈ run, b ≠ 0x00) (hl : run.length ≤ 253) :
    dec (cobsBlock run ++ 0x00 :: rest) f = (.ok, run) := by
  simp [dec_short_block f _ hz hl, decLoop]

/-- A short block before another block stands for its run and one zero (R105). -/
theorem dec_short_next (f : Bool) {run : List Byte} {next : Byte} (rest : List Byte) (hz : ∀ b ∈ run, b ≠ 0x00)
    (hl : run.length ≤ 253) (hn : next ≠ 0x00) :
    dec (cobsBlock run ++ next :: rest) f =
      ((dec (next :: rest) f).1, run ++ 0x00 :: (dec (next :: rest) f).2) := by
  have hnext : decLoop f .shortEnd (next :: rest) = consDecoded 0x00 (dec (next :: rest) f) := by
    rw [dec, decLoop, if_neg hn, decLoop, if_neg hn]
  rw [dec_short_block f _ hz hl, hnext, consDecoded]

/-- A marker and a run of the length it announces are the block of that run (R100). -/
theorem marker_cons_eq_cobsBlock {marker : Byte} {run : List Byte} (hm : marker ≠ 0x00) (hl : run.length = marker.toNat - 1) :
    marker :: run = cobsBlock run := by
  have hpos : marker.toNat ≠ 0 := fun h => hm (BitVec.eq_of_toNat_eq h)
  rw [cobsBlock, hl, Nat.sub_add_cancel (Nat.pos_of_ne_zero hpos), BitVec.ofNat_toNat, BitVec.setWidth_eq]

/-- The run of any other marker than 0xFF is short (R100). -/
theorem run_short_of_marker {marker : Byte} {run : List Byte} (hm : marker ≠ 0xFF) (hl : run.length = marker.toNat - 1) :
    run.length ≤ 253 := by
  have hne : marker.toNat ≠ 255 := fun h => hm (BitVec.eq_of_toNat_eq h)
  have hlt : marker.toNat < 256 := marker.isLt
  omega

/-- Settles O23: the exits of the decoder, one block at a time. -/
theorem decoderRules : Obligations.DecoderRules := by
  intro f
  refine ⟨rfl, fun rest => rfl, fun marker run hm hz => ⟨fun hl => ?_, fun hl hfull rest => ?_, fun hl hshort => ?_⟩⟩
  · exact ⟨dec_cut_end f hm hz hl, fun rest => dec_cut_zero f rest hm hz hl⟩
  · rw [← List.cons_append, marker_cons_eq_cobsBlock hm hl]
    exact dec_full_block f rest hz (by rw [hl, hfull]; rfl)
  · have hl' := run_short_of_marker hshort hl
    simp only [← List.cons_append, marker_cons_eq_cobsBlock hm hl]
    exact ⟨dec_short_end f hz hl', fun rest => dec_short_zero f rest hz hl',
      fun next rest hn => dec_short_next f rest hz hl' hn⟩

/-! ## Zero-free strings -/

/-- How a zero-free string is cut into blocks from the front: it is empty, or a block that is cut short, or a full block before such
a string, or a short block at the end or before such a string (R110). Tied to the strings by `blockwise_of_zeroFree`. -/
inductive Blockwise : List Byte → Prop
  | nil : Blockwise []
  | cut (marker : Byte) (run : List Byte) (hm : marker ≠ 0x00) (hz : ∀ b ∈ run, b ≠ 0x00)
      (hl : run.length < marker.toNat - 1) : Blockwise (marker :: run)
  | full (run rest : List Byte) (hz : ∀ b ∈ run, b ≠ 0x00) (hl : run.length = 254) (hrest : Blockwise rest) :
      Blockwise (cobsBlock run ++ rest)
  | last (run : List Byte) (hz : ∀ b ∈ run, b ≠ 0x00) (hl : run.length ≤ 253) : Blockwise (cobsBlock run)
  | short (run : List Byte) (next : Byte) (rest : List Byte) (hz : ∀ b ∈ run, b ≠ 0x00) (hl : run.length ≤ 253)
      (hn : next ≠ 0x00) (hrest : Blockwise (next :: rest)) : Blockwise (cobsBlock run ++ next :: rest)

/-- Every string of non-zero bytes is cut into blocks: its first byte is a marker, which says how many bytes belong to it. -/
theorem blockwise_of_nonzero (x : List Byte) (hx : ∀ b ∈ x, b ≠ 0x00) : Blockwise x := by
  induction hn : x.length using Nat.strong_induction_on generalizing x with
  | _ n ih =>
    subst hn
    cases x with
    | nil => exact .nil
    | cons marker tail =>
      obtain ⟨hm, ht⟩ := List.forall_mem_cons.1 hx
      by_cases hcut : tail.length < marker.toNat - 1
      · exact .cut marker tail hm ht hcut
      · obtain ⟨run, rest, rfl, hl⟩ : ∃ run rest, tail = run ++ rest ∧ run.length = marker.toNat - 1 :=
          ⟨_, _, (List.take_append_drop (marker.toNat - 1) tail).symm, List.length_take_of_le (Nat.not_lt.1 hcut)⟩
        obtain ⟨hz, hrest⟩ := List.forall_mem_append.1 ht
        have hB : Blockwise rest := ih rest.length (by simp) rest hrest rfl
        rw [← List.cons_append, marker_cons_eq_cobsBlock hm hl]
        by_cases hfull : marker = 0xFF
        · exact .full run rest hz (by rw [hl, hfull]; rfl) hB
        · have hl' := run_short_of_marker hfull hl
          cases rest with
          | nil => simpa using Blockwise.last run hz hl'
          | cons next rest => exact .short run next rest hz hl' (hrest next List.mem_cons_self) hB

/-- Every zero-free string is cut into blocks. -/
theorem blockwise_of_zeroFree {x : List Byte} (hx : 0x00 ∉ x) : Blockwise x :=
  blockwise_of_nonzero x fun _ hb h0 => hx (h0 ▸ hb)

/-- How decoding a zero-free string as final (`x`) and with its terminator (`y`) go together (R109). -/
def AgreesAtTerminator (x y : CobsResult × List Byte) : Prop :=
  (x.1 = .ok ∧ y = x) ∨ ((x.1 = .tooShort ∨ x.1 = .zeroLengthBlock) ∧ y.1 = .unexpectedZero)

/-- The agreement is kept when the same bytes are decoded in front. -/
theorem AgreesAtTerminator.append {x y : CobsResult × List Byte} (h : AgreesAtTerminator x y) (front : List Byte) :
    AgreesAtTerminator (x.1, front ++ x.2) (y.1, front ++ y.2) := by
  obtain ⟨hok, rfl⟩ | herr := h
  · exact .inl ⟨hok, rfl⟩
  · exact .inr herr

/-- A zero-free string and its terminator (R109). -/
theorem dec_agreesAtTerminator (f : Bool) {x : List Byte} (hx : Blockwise x) :
    AgreesAtTerminator (dec x true) (dec (x ++ [0x00]) f) := by
  induction hx with
  | nil => exact .inr ⟨.inr rfl, rfl⟩
  | cut marker run hm hz hl =>
    rw [dec_cut_end true hm hz hl, List.cons_append, dec_cut_zero f [] hm hz hl]
    exact .inr ⟨.inl rfl, rfl⟩
  | full run rest hz hl _ ih =>
    rw [List.append_assoc, dec_full_block true rest hz hl, dec_full_block f _ hz hl]
    exact ih.append run
  | last run hz hl =>
    rw [dec_short_end true hz hl, dec_short_zero f [] hz hl]
    exact .inl ⟨rfl, rfl⟩
  | short run next rest hz hl hn _ ih =>
    rw [List.append_assoc, dec_short_next true rest hz hl hn, List.cons_append, dec_short_next f _ hz hl hn]
    exact (ih.append [0x00]).append run

/-- Settles O24: one of the two cases of the agreement. -/
theorem terminatorAgreement : Obligations.TerminatorAgreement := by
  intro x f hx
  obtain ⟨hok, heq⟩ | ⟨hcode, hzero⟩ := dec_agreesAtTerminator f (blockwise_of_zeroFree hx)
  · exact ⟨fun _ => heq, by simp [hok], by simp [hok], .inl hok⟩
  · refine ⟨fun hok => ?_, fun _ => hzero, fun _ => hzero, .inr hcode⟩
    rw [hok] at hcode
    exact absurd hcode (by decide)

/-- A zero-free string that decodes as final is the encoding of what it decodes to (R110). -/
theorem eq_enc_of_dec_eq_ok {x : List Byte} (hx : Blockwise x) (hok : (dec x true).1 = .ok) :
    x = enc (dec x true).2 := by
  induction hx with
  | nil => cases hok
  | cut marker run hm hz hl =>
    rw [dec_cut_end true hm hz hl] at hok
    cases hok
  | full run rest hz hl _ ih =>
    rw [dec_full_block true rest hz hl] at hok ⊢
    rw [enc_full_run run _ hz hl, ← ih hok]
  | last run hz hl => rw [dec_short_end true hz hl, enc_last_run run hz hl]
  | short run next rest hz hl hn _ ih =>
    rw [dec_short_next true rest hz hl hn] at hok ⊢
    rw [enc_run_zero run _ hz hl, ← ih hok]

/-- Settles O25, by `eq_enc_of_dec_eq_ok`; the three inputs with one output are evaluated. -/
theorem decoderAcceptsCanonicalOnly : Obligations.DecoderAcceptsCanonicalOnly := by
  refine ⟨fun x out hx hd => ?_, by decide⟩
  have h := eq_enc_of_dec_eq_ok (blockwise_of_zeroFree hx) (by rw [hd])
  rwa [hd] at h

/-! ## The commands -/

/-- The encoding of a vector that a packet can carry fits a length field with its terminator (R81, R102). -/
theorem length_enc_lt {data : List Byte} (h : data.length ≤ 65277) : (enc data).length + 1 ≤ 65535 := by
  have hb := encLoop_length_bound data [] (Nat.zero_le _)
  rw [← enc, List.length_nil] at hb
  omega

/-- Settles O26: the length field of the answer holds the length. -/
theorem cobsEncAnswersEncoding : Obligations.CobsEncAnswersEncoding := by
  intro data s h
  obtain ⟨hi, lo, he, hn⟩ := lengthField_bytes (enc data ++ [0x00]).length (by simpa using length_enc_lt h)
  refine ⟨hi, lo, ?_, by simpa using hn⟩
  rw [exec, execCobsEnc, he]
  rfl

/-- What the decoder gives back is no longer than its input (R106). -/
theorem length_dec_le (f : Bool) (data : List Byte) : (dec data f).2.length ≤ data.length :=
  decLoop_length_le f .lengthByte data

/-- Settles O27: the body of the answer in its two cases. -/
theorem cobsDecAnswersDecoding : Obligations.CobsDecAnswersDecoding := by
  refine ⟨⟨rfl, rfl, rfl, rfl, rfl⟩, fun final data s hlen => ⟨fun out hd => ?_, fun res out hd hres => ?_⟩⟩
  · have hout : out.length ≤ data.length := by
      have := length_dec_le final data
      rwa [hd] at this
    obtain ⟨hi, lo, he, hn⟩ := lengthField_bytes out.length (by omega)
    refine ⟨hout, hi, lo, ?_, hn⟩
    rw [exec, execCobsDec, hd, cobsDecBody, if_pos rfl, he]
    rfl
  · rw [exec, execCobsDec, hd, cobsDecBody, if_neg hres]
    rfl

end Sys2Proof.Machine
end

section
/-! PROOFS. The CRC Engine (spec 41_crc.md): the remainder table (R131), the results of the four commands (R136 to R139), the value
of a string in whatever pieces it is fed (R135), the known answer (R140), and that one changed byte changes the CRC (K4). -/

namespace Sys2Proof.Machine

/-! ## The table and single values -/

/-- The table's steps are the shift-and-xor step iterated (R131). -/
theorem crcSteps_eq_iterate (n : Nat) (r : Word) : crcSteps n r = crcStep^[n] r := by
  induction n generalizing r with
  | zero => rfl
  | succ n ih => exact ih (crcStep r)

/-- Settles O29: an entry is eight iterated steps on its index; the sample values are evaluated. -/
theorem remainderTable : Obligations.RemainderTable :=
  ⟨by decide +kernel, fun b => crcSteps_eq_iterate 8 (b.setWidth 32), by decide⟩

/-- Settles O31, by evaluation: nine updates of eight steps each. -/
theorem crcKnownAnswer : Obligations.CrcKnownAnswer := by
  unfold Obligations.CrcKnownAnswer
  decide +kernel

/-- Settles O28: each command is its own definition run on the state. -/
theorem crcCommandResults : Obligations.CrcCommandResults :=
  fun _ _ => ⟨rfl, rfl, rfl, rfl⟩

/-! ## Byte strings -/

/-- The accumulator after a string is UPD folded over it from the left (R135). -/
theorem updAll_eq_foldl (acc : Word) (bs : List Byte) : updAll acc bs = bs.foldl upd acc := by
  induction bs generalizing acc with
  | nil => rfl
  | cons b bs ih => exact ih (upd acc b)

/-- CRC32 starts with all bits set and complements at the end (R130, R135). -/
theorem crc32_eq_foldl (bs : List Byte) : crc32 bs = bs.foldl upd 0xFFFFFFFF ^^^ 0xFFFFFFFF :=
  congrArg fin (updAll_eq_foldl _ bs)

/-- One CRC.UPD per byte: the accumulator takes the string, each byte is answered OK, and nothing else happens (R137). -/
theorem execAll_crcUpds (bs : List Byte) (s : State) :
    execAll (bs.map .crcUpd) s =
      .next ((s.setCrcAcc (bs.foldl upd s.crcAcc)).deliver (List.replicate bs.length (.response [0x00]))) := by
  induction bs generalizing s with
  | nil => exact congrArg _ (State.deliver_nil s).symm
  | cons b bs ih =>
    have hexec : exec (.crcUpd b) s = .next (respond (s.setCrcAcc (upd s.crcAcc b)) .ok []) := rfl
    refine (execAll_cons_of_next hexec).trans ((ih _).trans (congrArg _ ?_))
    exact State.deliver_deliver (s.setCrcAcc (bs.foldl upd (upd s.crcAcc b))) [.response [0x00]] _

/-- `CRC.BUF` answers OK to CRC.INIT and to each byte, and then the CRC32 of the bytes (R88, R135). -/
theorem execAll_pseudoCrcBuf (bs : List Byte) (s : State) :
    execAll (pseudoCrcBuf bs) s =
      .next { s with
        crcAcc := bs.foldl upd 0xFFFFFFFF
        trace := s.trace ++ List.replicate (bs.length + 1) (.response [0x00])
          ++ [.response (0x00 :: be32 (crc32 bs))] } := by
  have hinit : exec .crcInit s = .next (respond (s.setCrcAcc 0xFFFFFFFF) .ok []) := rfl
  refine (execAll_cons_of_next hinit).trans ((execAll_append_of_next (execAll_crcUpds bs _)).trans ?_)
  rw [crc32_eq_foldl, List.replicate_succ, List.append_cons s.trace]
  rfl

/-- Settles O30: the commands run the fold of the whole string, and a fold over the pieces is the fold over their join. -/
theorem crcStreamEqualsWholeBuffer : Obligations.CrcStreamEqualsWholeBuffer := by
  refine ⟨crc32_eq_foldl, rfl, execAll_pseudoCrcBuf, fun pieces => ?_⟩
  rw [crc32_eq_foldl, List.foldl_flatten]

/-- Settles O32: after the common front the two bytes leave different accumulators, and neither the bytes behind them nor FIN
can make two different accumulators equal. -/
theorem singleByteChangeChangesCrc : Obligations.SingleByteChangeChangesCrc := by
  intro before after x y hxy h
  have hacc := fin_injective h
  rw [updAll_append, updAll_append] at hacc
  exact hxy (upd_injective_right (updAll_injective hacc))

end Sys2Proof.Machine
end

section
/-! PROOFS. The Frame Reader (spec 42_frame_reader.md): what each of its five commands answers and leaves (R151 to R160), and
what RXCAP non-zero bytes do to an empty reader (R161). -/

namespace Sys2Proof.Machine

/-! ## Offering a byte -/

/-- A full or matched reader rejects the byte: FR.UPD only answers (R157). -/
theorem exec_frUpd_of_closed (b : Byte) (s : State) (h : frClosed s.caps.rxcap s.reader = true) :
    exec (.frUpd b) s = .next (respond s .ok [0x00]) := by
  rw [exec, execFrUpd, frUpdate_of_closed _ _ b h]
  rfl

/-- An open reader takes the byte (R157). -/
theorem exec_frUpd_of_open (b : Byte) (s : State) (h : frClosed s.caps.rxcap s.reader = false) :
    exec (.frUpd b) s = .next (respond (s.setReader (frAppend s.reader b)) .ok [0x01]) := by
  rw [exec, execFrUpd, frUpdate_of_open _ _ b h]
  rfl

/-- Settles O18: the next state is that of the offer, and an offer stores at most at `FR_LEN`. -/
theorem frUpdStoresAtMostOneByte : Obligations.FrUpdStoresAtMostOneByte := by
  intro b s t h
  cases h
  exact ⟨rfl, rfl, rfl, rfl, fun _ ha => read_frUpdate_other _ _ _ ha⟩

/-- Settles O34: a full or matched reader is closed; any other is open, and the append advances its match from 0. -/
theorem frUpdTakesOrRejects : Obligations.FrUpdTakesOrRejects := by
  rintro s b ⟨-, ⟨hw, -⟩, -, -⟩
  refine ⟨fun hc => exec_frUpd_of_closed b s ((frClosed_eq_true _ _).2 hc), fun hl hm => ?_⟩
  have ho : frClosed s.caps.rxcap s.reader = false := (frClosed_eq_false _ _).2 ⟨hl.ne, by omega⟩
  have hm' : (frAppend s.reader b).m = if b = 0x00 then 1 else 0 := by rw [frAppend_m, hm]
  refine ⟨frAppend s.reader b, exec_frUpd_of_open b s ho, rfl, spanWith_frAppend _ b hw, hm', ?_, isFull_eq_true _ _⟩
  rw [haveMatch_eq_true, hm']
  simp

/-! ## Reset -/

/-- Settles O35: FR.RST is `fr_reset` and a response; an empty reader has no match, and is not full where there is room at all. -/
theorem frRstEmptiesTheReader : Obligations.FrRstEmptiesTheReader :=
  fun _ => ⟨rfl, (haveMatch_eq_false _).2 Nat.zero_ne_one, fun h => (isFull_eq_false _ _).2 (Nat.ne_of_lt h)⟩

/-! ## Flags and spans -/

/-- The flag byte as a number: bit 0 the match, bit 1 the full buffer (R158). -/
theorem toNat_flagByte (n : Nat) (r : Reader) :
    (flagByte n r).toNat = (if r.m = 1 then 1 else 0) + 2 * (if r.len = n then 1 else 0) := by
  simp only [flagByte, haveMatch_eq_true, isFull_eq_true]
  split <;> split <;> rfl

/-- FR.STAT answers the flag byte and the two bytes of `FR_LEN` (R158). -/
theorem exec_frStat (s : State) (h : s.reader.len ≤ 65535) :
    ∃ hi lo : Byte, exec .frStat s = .next (respond s .ok [flagByte s.caps.rxcap s.reader, hi, lo]) ∧
      hi.toNat * 256 + lo.toNat = s.reader.len := by
  obtain ⟨hi, lo, hf, hn⟩ := lengthField_bytes s.reader.len h
  refine ⟨hi, lo, ?_, hn⟩
  rw [exec, execFrStat, hf]

/-- `FR_LEN` fits its 16-bit field where the invariants of R34 hold. -/
theorem len_le_of_coreInv {s : State} (h : CoreInv s) : s.reader.len ≤ 65535 := by
  obtain ⟨⟨⟨-, hcap⟩, -⟩, -, ⟨hlen, -⟩, -⟩ := h
  exact hlen.trans hcap

/-- Settles O36: the level is at most RXCAP, so its field has its number. -/
theorem frStatAnswersFlagsAndLevel : Obligations.FrStatAnswersFlagsAndLevel := by
  intro s h
  obtain ⟨hi, lo, he, hn⟩ := exec_frStat s (len_le_of_coreInv h)
  exact ⟨_, hi, lo, he, toNat_flagByte _ _, hn⟩

/-- Settles O37: the span is read from index 0, and its length is at most RXCAP. -/
theorem frGetdAnswersTheSpan : Obligations.FrGetdAnswersTheSpan := by
  intro s h
  obtain ⟨hi, lo, hf, hn⟩ := lengthField_bytes s.reader.len (len_le_of_coreInv h)
  refine ⟨hi, lo, ?_, hn, length_memRead _ _ _, fun k hk => ?_⟩
  · rw [exec, execFrGetd, hf]
    rfl
  · rw [spanWith, getElem?_memRead _ _ _ _ hk, Nat.zero_add]

/-- A span that is not empty is the span less its delimiter and its last byte (R155). -/
theorem spanWith_eq_spanWithout_append (r : Reader) (h : 1 ≤ r.len) :
    spanWith r = spanWithout r ++ [r.buf.read (r.len - 1)] := by
  have hlast := memRead_succ r.buf 0 (r.len - 1)
  rwa [Nat.sub_add_cancel h, Nat.zero_add] at hlast

/-- Settles O38: the last byte of a matched span is the delimiter, by item 2 of R34. -/
theorem frGetAnswersTheSpanOrPrecond : Obligations.FrGetAnswersTheSpanOrPrecond := by
  intro s h
  have hle := len_le_of_coreInv h
  obtain ⟨-, -, ⟨-, -, hmatched, -⟩, -⟩ := h
  refine ⟨fun hm => ?_, fun hm => ?_⟩
  · obtain ⟨hpos, hdelim, -⟩ := hmatched hm
    have hspan : spanWith s.reader = spanWithout s.reader ++ [0x00] := by
      rw [spanWith_eq_spanWithout_append _ hpos, hdelim]
    obtain ⟨hi, lo, hf, hn⟩ := lengthField_bytes (s.reader.len - 1) (by omega)
    rw [hspan, List.dropLast_concat]
    refine ⟨hi, lo, ?_, hn, rfl⟩
    rw [exec, execFrGet, if_pos ((haveMatch_eq_true _).2 hm), Config.dlen, hf]
    rfl
  · rw [exec, execFrGet, (haveMatch_eq_false _).2 (by omega)]
    rfl

/-! ## Exhaustion -/

/-- Non-zero bytes for which there is room are all taken, without a match (R151, R157). -/
theorem execAll_frUpds_taken (bs : List Byte) (s : State) (hm : s.reader.m = 0) (hz : ∀ b ∈ bs, b ≠ 0x00)
    (hl : s.reader.len + bs.length ≤ s.caps.rxcap) :
    ∃ r : Reader, r.len = s.reader.len + bs.length ∧ r.m = 0 ∧
      execAll (pseudoFrUpds bs) s =
        .next ((s.setReader r).deliver (List.replicate bs.length (.response [0x00, 0x01]))) := by
  induction bs generalizing s with
  | nil => exact ⟨s.reader, rfl, hm, congrArg _ (State.deliver_nil s).symm⟩
  | cons b bs ih =>
    rw [List.length_cons] at hl
    obtain ⟨hb, hz⟩ := List.forall_mem_cons.1 hz
    have hopen : frClosed s.caps.rxcap s.reader = false := (frClosed_eq_false _ _).2 ⟨by omega, by omega⟩
    have hm' : (frAppend s.reader b).m = 0 := by rw [frAppend_m, if_neg hb, hm]
    obtain ⟨r, hr, hrm, he⟩ := ih (respond (s.setReader (frAppend s.reader b)) .ok [0x01]) hm' hz (by simpa using by omega)
    refine ⟨r, by simpa [Nat.add_assoc, Nat.add_comm 1] using hr, hrm, ?_⟩
    refine (execAll_cons_of_next (exec_frUpd_of_open b s hopen)).trans (he.trans (congrArg _ ?_))
    exact State.deliver_deliver (s.setReader r) [.response [0x00, 0x01]] _

/-- Settles O39: from an empty reader the RXCAP bytes fill it exactly, and a full reader is closed. -/
theorem readerExhaustion : Obligations.ReaderExhaustion := by
  intro s bs _ hcap hlen hm hbs hz
  obtain ⟨r, hr, hrm, he⟩ := execAll_frUpds_taken bs s hm hz (by omega)
  rw [hlen, Nat.zero_add, hbs] at hr
  rw [hbs] at he
  have hfull : isFull s.caps.rxcap r = true := (isFull_eq_true _ _).2 hr
  have hmatch : haveMatch r = false := (haveMatch_eq_false _).2 (by omega)
  have hflags : flagByte s.caps.rxcap r = 0x02 := by
    rw [flagByte, hfull, hmatch]
    rfl
  let t := (s.setReader r).deliver (List.replicate s.caps.rxcap (.response [0x00, 0x01]))
  obtain ⟨hi, lo, hstat, hn⟩ := exec_frStat t (hr.trans_le hcap)
  refine ⟨t, he, rfl, hr, hrm, hfull, hmatch, ⟨hi, lo, ?_, hn.trans hr⟩, fun b => ?_⟩
  · rw [← hflags]
    exact hstat
  · exact exec_frUpd_of_closed b t ((frClosed_eq_true _ _).2 (.inl hr))

end Sys2Proof.Machine
end

section
/-! PROOFS. Regions and the send path (spec 43_packet_manager.md): how a region parses (R171 to R173), that damage to one byte of it
shows (R191), and when PM.TX sends (R175 to R179). -/

namespace Sys2Proof.Machine

/-! ## Parsing -/

/-- Settles O41: the fields are read byte by byte and put together big-endian; a built region is valid. -/
theorem regionParsing : Obligations.RegionParsing := by
  refine ⟨fun c0 c1 c2 c3 l0 l1 i0 i1 o0 o1 o2 o3 payload => ⟨?_, rfl, rfl⟩, fun id payload order hp => ?_⟩
  · rw [← unbe32_quad c0, ← unbe16_pair l0, ← unbe16_pair i0, ← unbe32_quad o0]
    rfl
  · obtain ⟨-, hcrc, hlen⟩ := validRegion_buildRegion id payload order hp
    exact ⟨hcrc, hlen⟩

/-- The length of a built region (R172). -/
theorem length_buildRegion (id : Half) (payload : List Byte) (order : Word) :
    (buildRegion id payload order).length = 12 + payload.length := by
  rw [buildRegion_eq, List.length_append, length_headerBytes]

/-- Settles O42: the header read back is the one written, and its CRC and length agree because a built region is valid. -/
theorem builtRegionParsesBack : Obligations.BuiltRegionParsesBack := by
  intro id payload order hp
  obtain ⟨-, hcrc, hlen⟩ := validRegion_buildRegion id payload order hp
  rw [regionPayload_buildRegion] at hlen
  have hh := parseHeader_buildRegion id payload order
  exact ⟨length_buildRegion id payload order, congrArg Header.id hh, congrArg Header.order hh, hlen.symm,
    regionPayload_buildRegion id payload order, hcrc⟩

/-! ## Damage to one byte -/

/-- `be32` undoes `unbe32` on four bytes. -/
theorem be32_unbe32 {bs : List Byte} (h : bs.length = 4) : be32 (unbe32 bs) = bs := by
  obtain ⟨a, b, c, d, rfl⟩ := List.length_eq_four.1 h
  rw [unbe32_quad, be32_append]

/-- The CRC of a region does not read the bytes of its `crc` field (R171). -/
theorem frameCrc_eq_of_crc_byte {before : List Byte} (h : before.length < 4) (x y : Byte) (after : List Byte) :
    frameCrc (before ++ x :: after) = frameCrc (before ++ y :: after) := by
  obtain ⟨k, hk⟩ := Nat.exists_eq_add_of_lt h
  have hd (z : Byte) : (before ++ z :: after).drop 4 = after.drop k := by
    rw [List.drop_append, List.drop_eq_nil_of_le h.le, hk, Nat.add_assoc, Nat.add_sub_cancel_left]
    rfl
  rw [frameCrc, frameCrc, hd, hd]

/-- The CRC of a region reads every byte behind its `crc` field (R171, R191). -/
theorem frameCrc_ne_of_later_byte {before : List Byte} (h : 4 ≤ before.length) {x y : Byte} (hxy : x ≠ y) (after : List Byte) :
    frameCrc (before ++ x :: after) ≠ frameCrc (before ++ y :: after) := by
  rw [frameCrc, frameCrc, List.drop_append_of_le_length h, List.drop_append_of_le_length h, ← List.append_assoc,
    ← List.append_assoc]
  exact singleByteChangeChangesCrc _ after x y hxy

/-- The `crc` field is read from all of its four bytes (R173). -/
theorem crcField_ne_of_crc_byte {before : List Byte} (h : before.length < 4) {x y : Byte} (hxy : x ≠ y) {after : List Byte}
    (hlen : 12 ≤ (before ++ x :: after).length) :
    (parseHeader (before ++ x :: after)).crc ≠ (parseHeader (before ++ y :: after)).crc := by
  intro he
  have hfour (z : Byte) : ((before ++ z :: after).take 4).length = 4 := by
    simp only [List.length_append, List.length_cons, List.length_take] at hlen ⊢
    omega
  have htake : (before ++ x :: after).take 4 = (before ++ y :: after).take 4 := by
    rw [← be32_unbe32 (hfour x), ← be32_unbe32 (hfour y)]
    exact congrArg be32 he
  have hbyte := congrArg (·[before.length]?) htake
  simp only [List.getElem?_take_of_lt h, List.getElem?_append_right le_rfl, Nat.sub_self, List.getElem?_cons_zero] at hbyte
  exact hxy (Option.some.inj hbyte)

/-- The `crc` field is read from no other byte (R173). -/
theorem crcField_eq_of_later_byte {before : List Byte} (h : 4 ≤ before.length) (x y : Byte) (after : List Byte) :
    (parseHeader (before ++ x :: after)).crc = (parseHeader (before ++ y :: after)).crc := by
  rw [parseHeader, parseHeader, List.take_append_of_le_length h, List.take_append_of_le_length h]

/-- Settles O33: a byte of the `crc` field changes the stored CRC and not the computed one; any other byte changes the computed
CRC and not the stored one. -/
theorem singleByteDamageIsDetected : Obligations.SingleByteDamageIsDetected := by
  intro before after x y hxy hlen hagree hdamaged
  rcases Nat.lt_or_ge before.length 4 with h | h
  · refine crcField_ne_of_crc_byte h hxy hlen ?_
    rw [← hagree, ← hdamaged, frameCrc_eq_of_crc_byte h x y]
  · refine frameCrc_ne_of_later_byte h hxy after ?_
    rw [hagree, hdamaged, crcField_eq_of_later_byte h x y]

/-! ## Sending -/

/-- A frame is its encoding and one byte more (R84). -/
theorem length_frameOf (region : List Byte) : (frameOf region).length = (enc region).length + 1 :=
  List.length_append

/-- A frame is longer than its region, so the frame's test implies the region's (R178). -/
theorem region_fits_of_frame_fits {id : Half} {data : List Byte} {order : Word} {n : Nat}
    (h : (frameOf (buildRegion id data order)).length ≤ n) : Config.hdrSize + data.length ≤ n := by
  have hge : (buildRegion id data order).length + 1 ≤ (enc (buildRegion id data order)).length :=
    encLoop_length_ge (buildRegion id data order) []
  rw [length_buildRegion] at hge
  rw [length_frameOf] at h
  simp only [Config.hdrSize]
  omega

/-- A frame that fits is sent (R175, R177). -/
theorem txPacket_of_fits (s : State) (id : Half) (rep : Byte) (data : List Byte)
    (h : (frameOf (buildRegion id data (s.pm.lastSentOrder + 1))).length ≤ s.caps.txcap) :
    txPacket s id rep data =
      respond ((s.setLastSentOrder (s.pm.lastSentOrder + 1)).deliver
        (txEvents rep.toNat (frameOf (buildRegion id data (s.pm.lastSentOrder + 1))))) .ok (be32 (s.pm.lastSentOrder + 1)) :=
  (if_neg (Nat.not_lt.2 (region_fits_of_frame_fits h))).trans (if_neg (Nat.not_lt.2 h))

/-- A frame that does not fit is not sent: a send implies that it fits (R175). -/
theorem txPacket_of_too_long (s : State) (id : Half) (rep : Byte) (data : List Byte)
    (h : s.caps.txcap < (frameOf (buildRegion id data (s.pm.lastSentOrder + 1))).length) :
    txPacket s id rep data = respond s .ok (be32 0) :=
  (txPacket_cases s id rep data).resolve_right fun ⟨_, hfit, _⟩ => Nat.not_le.2 h hfit

/-- Settles O44: the frame is the encoding with its terminator, and its fit alone decides. -/
theorem pmTxSendsExactlyWhenTheFrameFits : Obligations.PmTxSendsExactlyWhenTheFrameFits := by
  intro id rep data s
  rw [← length_frameOf]
  refine ⟨fun h => ?_, fun h => ?_⟩
  · rw [exec, execPmTx, txPacket_of_fits s id rep data h, txEvents_eq]
    rfl
  · rw [exec, execPmTx, txPacket_of_too_long s id rep data h]
    rfl

/-- A frame adds to its region at most one marker, one more for each 254 bytes, and the terminator (R102, R178). -/
theorem length_frameOf_buildRegion_le (id : Half) (data : List Byte) (order : Word) :
    (frameOf (buildRegion id data order)).length ≤ 12 + data.length + (12 + data.length) / 254 + 2 := by
  have hle : (enc (buildRegion id data order)).length ≤
      (buildRegion id data order).length + 1 + (buildRegion id data order).length / 254 :=
    encLoop_length_bound (buildRegion id data order) [] (Nat.zero_le _)
  rw [length_buildRegion] at hle
  rw [length_frameOf]
  omega

/-- Settles O45: either condition leaves room for the longest frame of that payload length. -/
theorem pmTxSucceedsWithMargin : Obligations.PmTxSucceedsWithMargin := by
  intro id rep data s h
  have hle := length_frameOf_buildRegion_le id data (s.pm.lastSentOrder + 1)
  have hsend := txPacket_of_fits s id rep data (by omega)
  exact ⟨txPacket s id rep data, rfl, by rw [hsend]; rfl⟩

/-- Settles O46: the order after 0xFFFFFFFF is 0. -/
theorem pmTxOrderWraps : Obligations.PmTxOrderWraps := by
  intro id rep data s hlast hfit
  have hwrap : s.pm.lastSentOrder + 1 = 0 := by
    rw [hlast]
    rfl
  obtain ⟨hsend, -⟩ := pmTxSendsExactlyWhenTheFrameFits id rep data s
  rw [hwrap] at hsend
  exact hsend hfit

end Sys2Proof.Machine
end

section
/-! PROOFS. The receive path, PM.RST and PM.STAT (spec 43_packet_manager.md): what a PM.RX finds and does in each case of R182 and
R185, which byte it stores (R181, R183), and what the two other commands answer (R187, R188). -/

namespace Sys2Proof.Machine

/-! ## The stored byte -/

/-- A reader that holds one byte alone has it at index 0. -/
theorem read_zero_of_holdsOnly {r : Reader} {b : Byte} (h : HoldsOnly r b) : r.buf.read 0 = b := by
  obtain ⟨hlen, hspan, -⟩ := h
  rw [spanWith, hlen] at hspan
  exact (List.cons.inj hspan).1

/-- The reader after an attempt: the fed one, reset and fed again (R183). -/
theorem rxByte_reader_of_closed {s : State} {b : Byte}
    (h : frClosed s.caps.rxcap (frUpdate s.caps.rxcap s.reader b).1 = true) :
    (rxByte s b).reader = (frUpdate s.caps.rxcap (frReset (frUpdate s.caps.rxcap s.reader b).1) b).1 := by
  obtain ⟨hcaps, -, hreader, -⟩ := finishRx_frame (s.setReader (frUpdate s.caps.rxcap s.reader b).1)
  rw [rxByte_of_closed s b h, epilogue_eq, hcaps, hreader]
  rfl

/-- An attempt stores at index 0 only: every other index is as the fed reader has it (R183). -/
theorem read_rxByte_of_closed {s : State} {b : Byte} {a : Nat}
    (h : frClosed s.caps.rxcap (frUpdate s.caps.rxcap s.reader b).1 = true) (ha : a ≠ 0) :
    (rxByte s b).reader.buf.read a = (frUpdate s.caps.rxcap s.reader b).1.buf.read a := by
  rw [rxByte_reader_of_closed h, read_frUpdate_other _ _ _ fun hc => ha hc.2, frReset_buf]

/-- Where the invariants hold, an attempt leaves the byte at index 0 (R183). -/
theorem read_rxByte_zero_of_closed {s : State} {b : Byte} (hs : CoreInv s)
    (h : frClosed s.caps.rxcap (frUpdate s.caps.rxcap s.reader b).1 = true) : (rxByte s b).reader.buf.read 0 = b := by
  obtain ⟨r, hr, he⟩ := rxByte_of_closed_eq s b hs h
  rw [he]
  exact read_zero_of_holdsOnly hr

/-- PM.RX stores at `FR_LEN` if the byte is taken, at index 0 if an attempt runs, and nowhere else (R181, R183). -/
theorem read_rxByte_other {s : State} {b : Byte} {a : Nat}
    (htaken : ¬ (frClosed s.caps.rxcap s.reader = false ∧ a = s.reader.len))
    (hattempt : ¬ (frClosed s.caps.rxcap (frUpdate s.caps.rxcap s.reader b).1 = true ∧ a = 0)) :
    (rxByte s b).reader.buf.read a = s.reader.buf.read a := by
  have hfed := read_frUpdate_other s.caps.rxcap s.reader b htaken
  cases hc : frClosed s.caps.rxcap (frUpdate s.caps.rxcap s.reader b).1
  · rw [rxByte_of_open s b hc]
    exact hfed
  · rw [read_rxByte_of_closed hc fun ha => hattempt ⟨hc, ha⟩, hfed]

/-- Where the invariants hold, a byte that is taken stands at the index that was `FR_LEN`; an attempt stores over it only with
itself (R181, R183). -/
theorem read_rxByte_taken {s : State} {b : Byte} (hs : CoreInv s) (h : frClosed s.caps.rxcap s.reader = false) :
    (rxByte s b).reader.buf.read s.reader.len = b := by
  have ⟨_, ⟨hw, _⟩, _, _⟩ := hs
  have hfed := read_frUpdate_taken s.caps.rxcap s.reader b h hw
  cases hc : frClosed s.caps.rxcap (frUpdate s.caps.rxcap s.reader b).1
  · rw [rxByte_of_open s b hc]
    exact hfed
  · by_cases hlen : s.reader.len = 0
    · rw [hlen]
      exact read_rxByte_zero_of_closed hs hc
    · rw [read_rxByte_of_closed hc hlen, hfed]

/-- Settles O19: PM.RX is `rxByte` and a response, and `rxByte` stores through the two offers of the byte alone. -/
theorem pmRxStoresOnlyTheReceivedByte : Obligations.PmRxStoresOnlyTheReceivedByte := by
  intro b s t h
  cases h
  obtain ⟨r, p, outs, -, heffect⟩ := rxByte_effect b s
  have he : rxByte s b = { s with reader := r, pm := p, trace := s.trace ++ outs } := heffect s.trace s.pending
  refine ⟨?_, ?_, ?_, fun a htaken hattempt => read_rxByte_other htaken hattempt,
    fun hs => ⟨read_rxByte_taken hs, read_rxByte_zero_of_closed hs⟩⟩
  · rw [respond_caps, he]
  · rw [respond_crcAcc, he]
  · rw [respond_pending, he]

/-! ## The situations -/

/-- Settles O47: with a match the span is attempted; without one, the level and the byte decide. -/
theorem pmRxSituations : Obligations.PmRxSituations := by
  rintro s b ⟨-, -, ⟨hlen, hm, -⟩, -⟩
  refine ⟨?_, ?_, ?_, ?_⟩
  · by_cases hmatch : s.reader.m = 1
    · exact .inr (.inr ⟨_, .inl ⟨hmatch, rfl⟩⟩)
    · have hm0 : s.reader.m = 0 := by omega
      by_cases hfull : s.reader.len = s.caps.rxcap
      · exact .inr (.inl ⟨hm0, .inl hfull⟩)
      · by_cases hb : b = 0x00
        · exact .inr (.inr ⟨_, .inr ⟨hm0, by omega, hb, rfl⟩⟩)
        · by_cases hlast : s.reader.len + 1 = s.caps.rxcap
          · exact .inr (.inl ⟨hm0, .inr ⟨hlast, hb⟩⟩)
          · exact .inl ⟨hm0, by omega, hb⟩
  · rintro ⟨⟨-, hroom, -⟩, -, hfull | ⟨hlast, -⟩⟩ <;> omega
  · rintro ⟨⟨hm0, -, hb⟩, -, ⟨hm1, -⟩ | ⟨-, -, hb0, -⟩⟩
    · omega
    · exact hb hb0
  · rintro ⟨⟨hm0, hfull⟩, -, ⟨hm1, -⟩ | ⟨-, hroom, hb0, -⟩⟩
    · omega
    · obtain hfull | ⟨-, hb⟩ := hfull
      · omega
      · exact hb hb0

/-- Settles O48: the byte is appended to the span. -/
theorem pmRxAccumulates : Obligations.PmRxAccumulates := by
  intro s b h hacc
  have he := rxByte_of_accumulates s b hacc
  obtain ⟨-, ⟨hw, -⟩, -, -⟩ := h
  obtain ⟨hm, -, hb⟩ := hacc
  refine ⟨frAppend s.reader b, ?_, rfl, ?_, spanWith_frAppend _ b hw⟩
  · rw [exec, execPmRx, he]
    rfl
  · rw [frAppend_m, if_neg hb, hm]

/-- No overrun is counted between commands (item 4 of R34). -/
theorem currentOverruns_of_coreInv {s : State} (h : CoreInv s) : s.pm.stats.currentOverruns = 0 := by
  obtain ⟨-, -, -, h0⟩ := h
  exact h0

/-- One overrun, counted and folded, is one more in `total_overruns` (R182 a, R183). -/
theorem foldOverruns_countOverrun {s : State} (h : s.pm.stats.currentOverruns = 0) :
    foldOverruns (countOverrun s) = s.setStats { s.pm.stats with totalOverruns := s.pm.stats.totalOverruns + 1 } := by
  simp [foldOverruns, countOverrun, State.setStats, h]

/-- Settles O49: the one overrun is folded into the total. -/
theorem pmRxOverrun : Obligations.PmRxOverrun := by
  intro s b h ho
  obtain ⟨r, hr, he⟩ := rxByte_of_overruns s b h ho
  refine ⟨r, hr, ?_⟩
  rw [exec, execPmRx, he, foldOverruns_countOverrun (currentOverruns_of_coreInv h)]
  rfl

/-! ## Attempts on a matched span -/

/-- A region shorter than a header is a length error (sub-step c of R182). -/
theorem checkRegion_of_short (s : State) {region : List Byte} (h : region.length < 12) :
    checkRegion s region = countLengthError s :=
  if_pos h

/-- A region whose CRC disagrees is a CRC error (sub-step e of R182). -/
theorem checkRegion_of_crc (s : State) {region : List Byte} (hlen : 12 ≤ region.length)
    (h : frameCrc region ≠ (parseHeader region).crc) : checkRegion s region = countCrcError s :=
  (if_neg (Nat.not_lt.2 hlen)).trans (if_pos h)

/-- A region whose payload has another length than its header says is a length error (sub-step f of R182). -/
theorem checkRegion_of_mismatch (s : State) {region : List Byte} (hlen : 12 ≤ region.length)
    (hcrc : frameCrc region = (parseHeader region).crc) (h : (regionPayload region).length ≠ (parseHeader region).len.toNat) :
    checkRegion s region = countLengthError s :=
  (if_neg (Nat.not_lt.2 hlen)).trans ((if_neg (not_not_intro hcrc)).trans (if_pos h))

/-- A header of the last accepted order is a duplicate (R185). -/
theorem classify_of_eq (s : State) {h : Header} (payload : List Byte) (heq : h.order = s.pm.lastReceivedOrder) :
    classify s h payload = countRedundant s :=
  if_pos heq

/-- A header of a lower order is a regression (R185). -/
theorem classify_of_lt (s : State) {h : Header} (payload : List Byte) (hlt : h.order.toNat < s.pm.lastReceivedOrder.toNat) :
    classify s h payload = pmReset s := by
  have hne : h.order ≠ s.pm.lastReceivedOrder := fun he => by rw [he] at hlt; omega
  rw [classify, if_neg hne, if_pos hlt]

section Attempt

variable {s t : State} {b : Byte} {x region : List Byte} (h : CoreInv s) (ha : AttemptOn s b x)
include h ha

/-- An attempt on a matched span does what its result calls for and restarts the reader with the byte; where that counts no
overrun there is nothing to fold (R182 b to g, R183). -/
theorem exec_pmRx_of_attempt
    (ht : (if (dec x true).1 = .ok then checkRegion s (dec x true).2 else countDecodeError s) = t)
    (h0 : t.pm.stats.currentOverruns = 0) :
    ∃ r, HoldsOnly r b ∧ exec (.pmRx b) s = .next (respond (t.setReader r) .ok []) := by
  obtain ⟨r, hr, he⟩ := rxByte_of_attempt s b x h ha
  refine ⟨r, hr, ?_⟩
  rw [exec, execPmRx, he, ht, foldOverruns_of_zero t h0]

/-- Where the span decodes, the checks of its region run (R182 c to g). -/
theorem exec_pmRx_of_region (hd : dec x true = (.ok, region)) (ht : checkRegion s region = t)
    (h0 : t.pm.stats.currentOverruns = 0) :
    ∃ r, HoldsOnly r b ∧ exec (.pmRx b) s = .next (respond (t.setReader r) .ok []) := by
  refine exec_pmRx_of_attempt h ha ?_ h0
  rw [hd]
  exact (if_pos rfl).trans ht

end Attempt

/-- Settles O50: any result but `Ok` is sub-step b. -/
theorem pmRxDecodeError : Obligations.PmRxDecodeError :=
  fun _ _ _ h ha hd => exec_pmRx_of_attempt h ha (if_neg hd) (currentOverruns_of_coreInv h :)

/-- Settles O51: both cases end in the same counter. -/
theorem pmRxLengthError : Obligations.PmRxLengthError := by
  intro s b x region h ha hd hbad
  have hcheck : checkRegion s region = countLengthError s := by
    obtain hshort | ⟨hlen, hcrc, hmismatch⟩ := hbad
    · exact checkRegion_of_short s hshort
    · exact checkRegion_of_mismatch s hlen hcrc hmismatch
  exact exec_pmRx_of_region h ha hd hcheck (currentOverruns_of_coreInv h :)

/-- Settles O52: the CRC is tested before the length and the order. -/
theorem pmRxCrcError : Obligations.PmRxCrcError :=
  fun s _ _ _ h ha hd hlen hcrc => exec_pmRx_of_region h ha hd (checkRegion_of_crc s hlen hcrc) (currentOverruns_of_coreInv h :)

/-- Settles O53: a valid region is classified, and an equal order is counted only. -/
theorem pmRxDuplicate : Obligations.PmRxDuplicate := by
  intro s b x region h ha hd hv heq
  have hcheck := (checkRegion_of_valid s region hv).trans (classify_of_eq s _ heq)
  exact exec_pmRx_of_region h ha hd hcheck (currentOverruns_of_coreInv h :)

/-- Settles O54: a valid region is classified, and a lower order resets the Packet Manager. -/
theorem pmRxRegression : Obligations.PmRxRegression := by
  intro s b x region h ha hd hv hlt
  have hcheck := (checkRegion_of_valid s region hv).trans (classify_of_lt s _ hlt)
  exact exec_pmRx_of_region h ha hd hcheck rfl

/-- Settles O55: a valid region is classified, and a higher order is dispatched; the gap of R185 is the subtraction on numbers. -/
theorem pmRxAcceptsAndDispatches : Obligations.PmRxAcceptsAndDispatches := by
  intro s b x region h ha hd hv hlt
  obtain ⟨r, hr, he⟩ := rxByte_of_accepted s b x region h ha hd hv hlt
  refine ⟨r, hr, ?_⟩
  rw [exec, execPmRx, he, ← order_gap hlt, List.append_cons]
  rfl

/-- A matched reader that holds one byte holds the delimiter (item 2 of R34). -/
theorem spanWith_of_matched_one {s : State} (h : CoreInv s) (hlen : s.reader.len = 1) (hm : s.reader.m = 1) :
    spanWith s.reader = [0x00] := by
  obtain ⟨-, -, ⟨-, -, hmatched, -⟩, -⟩ := h
  obtain ⟨-, hdelim, -⟩ := hmatched hm
  rw [hlen] at hdelim
  rw [spanWith, hlen]
  exact congrArg (fun c => [c]) hdelim

/-- Settles O57: the span is the delimiter alone, which decodes to `UnexpectedZero`. -/
theorem oneByteSpanCountsADecodeError : Obligations.OneByteSpanCountsADecodeError := by
  intro s b h hlen hm
  have hzero : (dec [0x00] true).1 ≠ .ok := by decide
  exact pmRxDecodeError s b [0x00] h (.inl ⟨hm, (spanWith_of_matched_one h hlen hm).symm⟩) hzero

/-! ## PM.RST and PM.STAT -/

/-- Settles O59: PM.RST is `pm_reset` and a response. -/
theorem pmRstResetsThePacketManager : Obligations.PmRstResetsThePacketManager :=
  fun _ => rfl

/-- The eleven status registers in the order of their indices (R27). Tied to the model by `statusReg_eq_getElem?`. -/
def statusRegs (s : State) : List Word :=
  [s.pm.stats.currentOverruns, s.pm.stats.totalOverruns, s.pm.stats.decodeErrors, s.pm.stats.crcErrors,
    s.pm.stats.lengthErrors, s.pm.stats.rxRedundantPackets, s.pm.stats.rxDroppedPackets, s.pm.stats.rxPackets,
    s.pm.stats.stateResets, s.pm.lastSentOrder, s.pm.lastReceivedOrder]

/-- `SR[i]` is the entry of the list at `i` (R27). -/
theorem statusReg_eq_getElem? (s : State) (i : Nat) : statusReg s i = (statusRegs s)[i]? :=
  match i with
  | 0 | 1 | 2 | 3 | 4 | 5 | 6 | 7 | 8 | 9 | 10 => rfl
  | _ + 11 => rfl

/-- PM.STAT answers the register at its index (R188). -/
theorem exec_pmStat_of_some {s : State} {b : Byte} {v : Word} (h : statusReg s b.toNat = some v) :
    exec (.pmStat b) s = .next (respond s .ok (be32 v)) := by
  rw [exec, execPmStat, h]

/-- PM.STAT answers ILLEGAL where there is no register (R188). -/
theorem exec_pmStat_of_none {s : State} {b : Byte} (h : statusReg s b.toNat = none) :
    exec (.pmStat b) s = .next (respond s .illegal []) := by
  rw [exec, execPmStat, h]

/-- Settles O60: the register of an index is the list's entry there, and there are eleven. -/
theorem pmStatAnswersStatusRegister : Obligations.PmStatAnswersStatusRegister := by
  refine fun s b => ⟨fun hb => exec_pmStat_of_none ?_, fun k v hk hv => exec_pmStat_of_some ?_, fun h => ?_⟩
  · rw [statusReg_eq_getElem?]
    exact List.getElem?_eq_none hb
  · rw [statusReg_eq_getElem?, hk]
    exact hv
  · exact congrArg some (currentOverruns_of_coreInv h)

end Sys2Proof.Machine
end

section
/-! PROOFS. The exceptions family (spec 60_exceptions.md): which decode results can occur inside PM.RX (R211). -/

namespace Sys2Proof.Machine

/-- Decoding a terminated zero-free string as final succeeds or meets the terminator too early (R109). -/
theorem dec_terminated_result {body : List Byte} (h : 0x00 ∉ body) :
    (dec (body ++ [0x00]) true).1 = .ok ∨ (dec (body ++ [0x00]) true).1 = .unexpectedZero := by
  obtain ⟨hok, heq⟩ | ⟨-, hzero⟩ := dec_agreesAtTerminator true (blockwise_of_zeroFree h)
  · exact .inl (heq ▸ hok)
  · exact .inr hzero

/-- A matched span is zero-free up to the delimiter that ends it (item 2 of R34). -/
theorem spanWith_of_matched {c : Capacities} {r : Reader} (h : ReaderInv c r) (hm : r.m = 1) :
    0x00 ∉ spanWithout r ∧ spanWith r = spanWithout r ++ [0x00] := by
  obtain ⟨-, -, hmatched, -⟩ := h
  obtain ⟨hpos, hdelim, hz⟩ := hmatched hm
  refine ⟨fun h0 => hz _ h0 rfl, ?_⟩
  rw [spanWith_eq_spanWithout_append r hpos, hdelim]

/-- An unmatched span is zero-free (item 3 of R34). -/
theorem zero_notMem_spanWith_of_unmatched {c : Capacities} {r : Reader} (h : ReaderInv c r) (hm : r.m = 0) :
    0x00 ∉ spanWith r := by
  obtain ⟨-, -, -, hunmatched⟩ := h
  exact fun h0 => hunmatched hm _ h0 rfl

/-- The span of an attempt is a zero-free string and its delimiter, whether it stood in the reader or the byte completes it
(R181, R182 b). -/
theorem exists_zeroFree_of_attemptOn {s : State} {b : Byte} {x : List Byte} (h : CoreInv s) (ha : AttemptOn s b x) :
    ∃ body, 0x00 ∉ body ∧ x = body ++ [0x00] := by
  obtain ⟨-, -, hr, -⟩ := h
  obtain ⟨hm, rfl⟩ | ⟨hm, -, -, rfl⟩ := ha
  · exact ⟨_, spanWith_of_matched hr hm⟩
  · exact ⟨_, zero_notMem_spanWith_of_unmatched hr hm, rfl⟩

/-- Settles O56: the one zero of the span is its last byte, where the decoder ends after a short block or still needs a byte. -/
theorem pmRxDecodeResults : Obligations.PmRxDecodeResults := by
  intro s b x h ha
  obtain ⟨body, hz, rfl⟩ := exists_zeroFree_of_attemptOn h ha
  exact dec_terminated_result hz

end Sys2Proof.Machine
end

section
/-! PROOFS. Invariants and reset (spec 10_state.md rules R33, R34): every step keeps the invariants, hardware reset establishes
them, and what it leaves; and the port on which nothing, or overlapping packets, is presented (R64, R225). -/

namespace Sys2Proof.Machine

/-! ## The invariants of R34, step by step -/

/-- The invariants survive any reader that meets its own. -/
theorem coreInv_setReader {s : State} {r : Reader} (h : CoreInv s) (hr : StorageInv s.caps r ∧ ReaderInv s.caps r) :
    CoreInv (s.setReader r) := by
  obtain ⟨hcaps, -, -, h0⟩ := h
  obtain ⟨hstorage, hreader⟩ := hr
  exact ⟨hcaps, hstorage, hreader, h0⟩

/-- The invariants survive an offered byte (R151). -/
theorem coreInv_setReader_frUpdate {s : State} (h : CoreInv s) (b : Byte) :
    CoreInv (s.setReader (frUpdate s.caps.rxcap s.reader b).1) := by
  have ⟨_, hstorage, hreader, _⟩ := h
  exact coreInv_setReader h (readerInv_frUpdate s.caps s.reader b hstorage hreader)

/-- The invariants survive a reset of the reader (R153). -/
theorem coreInv_setReader_frReset {s : State} (h : CoreInv s) : CoreInv (s.setReader (frReset s.reader)) := by
  have ⟨_, hstorage, _, _⟩ := h
  exact coreInv_setReader h (readerInv_frReset s.caps s.reader hstorage)

/-- The epilogue establishes what an attempt may have broken: it folds the overruns and restarts the reader (R183). -/
theorem coreInv_epilogue {s : State} (hcaps : CapsInv s.caps) (hstorage : StorageInv s.caps s.reader) (b : Byte) :
    CoreInv (epilogue s b) := by
  have hempty := readerInv_frReset s.caps s.reader hstorage
  have hfed := readerInv_frUpdate s.caps (frReset s.reader) b hempty.1 hempty.2
  exact ⟨hcaps, hfed.1, hfed.2, rfl⟩

/-- PM.RX keeps the invariants: the byte alone is fed, or an attempt runs, which writes neither the capacities nor the reader,
and the epilogue ends it (R181). -/
theorem coreInv_rxByte {s : State} (h : CoreInv s) (b : Byte) : CoreInv (rxByte s b) := by
  have hfed := coreInv_setReader_frUpdate h b
  cases hc : frClosed s.caps.rxcap (frUpdate s.caps.rxcap s.reader b).1 with
  | false =>
    rw [rxByte_of_open s b hc]
    exact hfed
  | true =>
    rw [rxByte_of_closed s b hc]
    obtain ⟨hcaps, hstorage, -, -⟩ := hfed
    obtain ⟨ecaps, -, ereader, -⟩ := finishRx_frame (s.setReader (frUpdate s.caps.rxcap s.reader b).1)
    apply coreInv_epilogue
    · rwa [ecaps]
    · rwa [ecaps, ereader]

/-- Every command keeps the invariants: only FR.RST, FR.UPD and PM.RX write the reader, and only PM.RST and PM.RX the statistics
(R22 to R28). -/
theorem coreInv_of_exec {i : Instr} {s t : State} (h : CoreInv s) (he : exec i s = .next t) : CoreInv t := by
  obtain ⟨v, r, p, outs, hw, -, ht⟩ := exec_next he
  cases hw with
  | nothing | crcInit | crcUpd | pmTx =>
    rw [ht]
    exact h
  | frRst =>
    cases he
    exact (coreInv_setReader_frReset h :)
  | frUpd b =>
    cases he
    exact (coreInv_setReader_frUpdate h b :)
  | pmRst =>
    cases he
    obtain ⟨hcaps, hstorage, hreader, -⟩ := h
    exact ⟨hcaps, hstorage, hreader, rfl⟩
  | pmRx b =>
    cases he
    exact (coreInv_rxByte h b :)

/-- Settles O12: taking a packet and answering ILLEGAL touch nothing the invariants speak of, and every command keeps them. -/
theorem stepKeepsInvariant : Obligations.StepKeepsInvariant := by
  intro s t h hstep
  obtain rfl | ⟨ps, rfl | ⟨i, he⟩⟩ := step_next hstep
  · exact h
  · exact h
  · exact coreInv_of_exec (s := s.setPending ps) h he

/-! ## Hardware reset -/

/-- Hardware reset at legal capacities establishes the invariants (R33, R34). -/
theorem coreInv_resetWith {c : Capacities} (h : CapsInv c) : CoreInv (State.resetWith c) := by
  have hstorage : StorageInv c Reader.reset := ⟨Memory.wf_nil, List.forall_mem_nil _⟩
  obtain ⟨-, hreader⟩ := readerInv_frReset c Reader.reset hstorage
  exact ⟨h, hstorage, hreader, rfl⟩

/-- The open capacities are legal, whatever they are (R9). -/
theorem capsInv_config : CapsInv { rxcap := Config.rxcap, txcap := Config.txcap } :=
  ⟨⟨Nat.le_add_left 1 _, Config.rxcapLessOne.isLt⟩, ⟨Nat.le_add_left 1 _, Config.txcapLessOne.isLt⟩⟩

/-- Settles O13: `State.reset` is the reset at the open capacities, which are legal. -/
theorem resetMeetsInvariant : Obligations.ResetMeetsInvariant :=
  ⟨fun _ => coreInv_resetWith, coreInv_resetWith capsInv_config⟩

/-- All eleven status registers are zero after hardware reset (R27, R33). -/
theorem statusReg_resetWith (c : Capacities) {k : Nat} (h : k ≤ 10) : statusReg (State.resetWith c) k = some 0 := by
  have hall : statusRegs (State.resetWith c) = List.replicate 11 0 := rfl
  rw [statusReg_eq_getElem?, hall, List.getElem?_replicate_of_lt (Nat.lt_succ_of_le h)]

/-- An empty reader has no match and, where it can hold a byte, is not full (R24). -/
theorem flags_of_reset {n : Nat} (h : 1 ≤ n) : haveMatch Reader.reset = false ∧ isFull n Reader.reset = false :=
  ⟨rfl, (isFull_eq_false n Reader.reset).2 (Nat.ne_of_lt h)⟩

/-- Settles O14: the registers are those of the definition, and the flags follow from the empty reader. -/
theorem resetValues : Obligations.ResetValues :=
  ⟨fun c => ⟨rfl, rfl, rfl, rfl, rfl, rfl, fun _ => statusReg_resetWith c, flags_of_reset, rfl, rfl⟩,
    _, capsInv_config, rfl⟩

/-! ## The port without a packet to take -/

/-- Settles O7: an idle port leaves the state as it is, and an overlapping presentation is refused. -/
theorem idleAndOverlappingPort : Obligations.IdleAndOverlappingPort := by
  refine ⟨fun s h => ?_, fun s ps rest h => ?_⟩
  · rw [step, fetch_of_idle s h]
  · rw [step, fetch_of_overlap s ps rest h]

end Sys2Proof.Machine
end
